-- ==== Sys2Proof/Word.lean ====
section
/-! DEFINITION. The word types of the block: every value is unsigned (rule R9). -/

namespace Sys2Proof

/-- A byte, an unsigned integer 0 to 255 (rule R9); the unit every interface of the block moves. -/
abbrev Byte := BitVec 8

/-- A uint16 (rule R9): the CRC register, a 2-byte big-endian field. -/
abbrev Word16 := BitVec 16

/-- The 32-bit password of a WRITE_EPC command (rules R12, R179). -/
abbrev Word32 := BitVec 32

end Sys2Proof
end

