-- ==== Sys2Proof/Config.lean ====
section
/-! DEFINITION. The three straps of rule R8: static configuration, fixed before RESET, changed by no operation
(rules R40, R46). The spec leaves no value free beside them, so this file holds no opaque constant (log entry 3). -/

namespace Sys2Proof

/-- CRC_FAIL_DROP (rules R8, R146): how many bytes a CRC mismatch removes from the buffer. -/
inductive CrcFailDrop where
  /-- the whole candidate, `9 + N` bytes: the default, conflict C1 -/
  | candidate
  /-- the sync byte alone: the reading of SNR §4.2, kept as a strap -/
  | oneByte
  deriving DecidableEq, Repr

/-- BITLEN_SIZE (rules R8, R182): the size in bytes of the match filter's bitLength field, 1 or 2. -/
inductive BitlenSize where
  | one
  | two
  deriving DecidableEq, Repr

/-- `B` of rule R87, in bytes. -/
def BitlenSize.bytes : BitlenSize → Nat
  | .one => 1
  | .two => 2

/-- The configuration record of rule R8. -/
structure Straps where
  /-- CRC_FAIL_DROP, decision D4 -/
  crcFailDrop : CrcFailDrop
  /-- BUF_CAP, decision D3: `none` is the unbounded buffer -/
  bufCap : Option Nat
  /-- BITLEN_SIZE, decision D20: left OPEN by the spec -/
  bitlenSize : BitlenSize
  deriving DecidableEq, Repr

/-- Rule R33: a finite BUF_CAP is at least 65544 (FRAME_MAX). -/
def Straps.legal (c : Straps) : Bool :=
  match c.bufCap with
  | none => true
  | some n => decide (65544 ≤ n)

/-- The defaults of rule R8, with the suggested value 1 for the OPEN parameter BITLEN_SIZE (log entry 2). -/
def Straps.default : Straps :=
  { crcFailDrop := .candidate, bufCap := none, bitlenSize := .one }

end Sys2Proof
end

