-- ==== Sys2Proof/Machine/Operands.lean ====
section
/-! DEFINITION. The wire constants of rule R7 in one place, and the operand forms of the rules: big-endian fields
(rule R12), the least offset of a byte (rule R11), hexadecimal strings (rules R177, R184), the antenna mask and the PC
word (rule R89). -/

namespace Sys2Proof.Machine

/-- SYNC, rule R7. -/
abbrev sync : Byte := 0x5A#8
/-- PCW, rule R7: the protocol control word FRAME.ENCODE writes. -/
abbrev pcw : Word16 := 0x0001#16
/-- HDR_LEN, rule R7. -/
@[simp] def hdrLen : Nat := 7
/-- OVERHEAD, rule R7: total frame size = 9 + length. -/
@[simp] def overhead : Nat := 9
/-- LEN_MAX, rule R7. -/
@[simp] def lenMax : Nat := 65535
/-- POLY, rule R7. -/
abbrev poly : Word16 := 0x1021#16
/-- CRC_INIT, rule R7. -/
abbrev crcInit : Word16 := 0x0000#16
/-- The only category of the catalogue, rule R78. -/
abbrev catInventory : Byte := 0x02#8
/-- TAG_REPORT's message id, rule R78. -/
abbrev midTagReport : Byte := 0x00#8
/-- START_INVENTORY's message id, rule R78. -/
abbrev midStart : Byte := 0x10#8
/-- WRITE_EPC's message id, command and response, rule R78. -/
abbrev midWriteEpc : Byte := 0x11#8
/-- STOP_INVENTORY's message id, rule R78. -/
abbrev midStop : Byte := 0xFF#8

/-- `be16(hi, lo) = (hi << 8) | lo`, rule R12. -/
def be16 (hi lo : Byte) : Word16 := (hi.setWidth 16 <<< 8) ||| lo.setWidth 16

/-- `hi8(v) = v[15:8]`, rule R12. -/
def hi8 (v : Word16) : Byte := v.extractLsb' 8 8

/-- `lo8(v) = v[7:0]`, rule R12. -/
def lo8 (v : Word16) : Byte := v.extractLsb' 0 8

/-- The two bytes of a 2-byte big-endian field: the more significant first (rules R12, R52). -/
def bytes16 (v : Word16) : List Byte := [hi8 v, lo8 v]

/-- `be32(v)`, rule R12: the four bytes, most significant first. -/
def be32 (v : Word32) : List Byte :=
  [v.extractLsb' 24 8, v.extractLsb' 16 8, v.extractLsb' 8 8, v.extractLsb' 0 8]

/-- The 32-bit value whose `be32` bytes are given. -/
def ofBe32 (a b c d : Byte) : Word32 :=
  (a.setWidth 32 <<< 24) ||| (b.setWidth 32 <<< 16) ||| (c.setWidth 32 <<< 8) ||| d.setWidth 32

/-- A length as the 2-byte field that holds it; used only where the length fits (rule R89 (a)). -/
def lenField (n : Nat) : List Byte := bytes16 (BitVec.ofNat 16 n)

/-- `indexOf(b, s)`, rule R11: the least offset holding `b`. -/
def indexOf (b : Byte) : List Byte → Option Nat
  | [] => none
  | x :: rest => if x = b then some 0 else (indexOf b rest).map (· + 1)

/-- `MemRead(k, 1)` of rule R13. Every rule reads inside the sequence; the default is never seen. -/
def memRead1 (m : List Byte) (k : Nat) : Byte := m.getD k 0

/-- `MemRead(k, 2)` of rule R13: two bytes assembled big-endian. -/
def memRead2 (m : List Byte) (k : Nat) : Word16 := be16 (memRead1 m k) (memRead1 m (k + 1))

/-- The half-open slice `m[i..j)` of rule R11. -/
def slice (m : List Byte) (i j : Nat) : List Byte := (m.take j).drop i

/-- The value of one hexadecimal digit in either case, `none` for any other character (rule R184). -/
def hexValue (c : Char) : Option (BitVec 4) :=
  let n := c.toNat
  if 48 ≤ n ∧ n ≤ 57 then some (BitVec.ofNat 4 (n - 48))
  else if 65 ≤ n ∧ n ≤ 70 then some (BitVec.ofNat 4 (n - 55))
  else if 97 ≤ n ∧ n ≤ 102 then some (BitVec.ofNat 4 (n - 87))
  else none

/-- `hexDigits(s)`, rule R184; the empty string passes. -/
def hexDigits (s : List Char) : Bool := s.all fun c => (hexValue c).isSome

/-- `bytesOfHex(s)`, rule R184: two digits per byte, high nibble first. Used on hexadecimal strings of even length. -/
def bytesOfHex : List Char → List Byte
  | hi :: lo :: rest => ((hexValue hi).getD 0 ++ (hexValue lo).getD 0) :: bytesOfHex rest
  | _ => []

/-- One of `0123456789ABCDEF`, rule R177. -/
def hexChar (n : BitVec 4) : Char :=
  if n.toNat < 10 then Char.ofNat (48 + n.toNat) else Char.ofNat (55 + n.toNat)

/-- `hexUpper(bytes)`, rule R177: two uppercase digits per byte, high nibble first, no separator. -/
def hexUpper : List Byte → List Char
  | [] => []
  | b :: rest => hexChar (b.extractLsb' 4 4) :: hexChar (b.extractLsb' 0 4) :: hexUpper rest

/-- The operand type "set of 1..4" (rules R172, R184). -/
def antennaIdOk (id : Nat) : Bool := decide (1 ≤ id) && decide (id ≤ 4)

/-- `1 << (id - 1)`, rules R89 (c), R181; used for `id` 1 to 4. -/
def antennaBit (id : Nat) : Byte := 1#8 <<< (id - 1)

/-- The OR of `1 << (id - 1)` over the selected ids, rule R171. -/
def antennaMask (ids : List Nat) : Byte := ids.foldl (fun mask id => mask ||| antennaBit id) 0#8

/-- `pcWord = (wordCount << 11) & 0xFFFF`, rule R89 (d): word-count bits above bit 4 are lost. -/
def pcWord (wordCount : Nat) : Word16 := BitVec.ofNat 16 wordCount <<< 11

/-- `beB(v)` of rule R179: `v` in BITLEN_SIZE big-endian bytes; used only where it fits (rule R182). -/
def bitlenField (size : BitlenSize) (v : Nat) : List Byte :=
  match size with
  | .one => [BitVec.ofNat 8 v]
  | .two => lenField v

/-- Rule R182: `O × 8` fits in BITLEN_SIZE bytes. -/
def bitlenFits (size : BitlenSize) (v : Nat) : Bool := decide (v < 256 ^ size.bytes)

end Sys2Proof.Machine
end

