-- ==== Sys2Proof/Syntax.lean ====
section
/-! DEFINITION. The operations of the block, one constructor per row of spec/opcode_table.json (rules R6, R91, R92):
fifteen operations, the unassigned select code, and the ten frame patterns of rule R79. -/

namespace Sys2Proof

/-- One constructor per row of the opcode table. A FRAME row is the transfer of one whole frame of that pattern over
the block's wire interface, in the row's direction (rules R45, R78, R79; log entry 6): its operands are the fields the
row's mask leaves free and the payload, the CRC being computed (rule R73). -/
inductive Instr where
  /-- RESET, rule R231 -/
  | reset
  /-- CRC16.CLEAR, rule R101 -/
  | crcClear
  /-- CRC16.BIT, rule R102 -/
  | crcBit
  /-- CRC16.BYTE(b), rule R103 -/
  | crcByte (b : Byte)
  /-- CRC16.COMPUTE(bytes), rule R104 -/
  | crcCompute (bytes : List Byte)
  /-- FRAME.ENCODE(category, messageId, payload), rule R121 -/
  | frameEncode (category messageId : Byte) (payload : List Byte)
  /-- FRAME.DECODE(s), rule R124 -/
  | frameDecode (slice : List Byte)
  /-- FRAME.TRYDECODE(b), rule R126 -/
  | frameTryDecode (buffer : List Byte)
  /-- RX.FEED(newBytes), rule R141 -/
  | rxFeed (newBytes : List Byte)
  /-- RX.BYTE(b), rule R150 -/
  | rxByte (b : Byte)
  /-- INV.START(antennaIds, continuous), rule R171 -/
  | invStart (antennaIds : List Nat) (continuous : Bool)
  /-- INV.STOP(), rule R173 -/
  | invStop
  /-- TAG.PARSE(payload), rule R175 -/
  | tagParse (payload : List Byte)
  /-- EPCW.BUILD(oldEpcHex, newEpcHex, antennaId, password), rule R179 -/
  | epcwBuild (oldEpcHex newEpcHex : List Char) (antennaId : Nat) (password : Word32)
  /-- WRES.PARSE(payload), rule R186 -/
  | wresParse (payload : List Byte)
  /-- select code 0xF, rule R91: refused -/
  | unassigned
  /-- FRAME.ANY, inbound, rules R71, R80 -/
  | frameAny (pcw : Word16) (category messageId : Byte) (payload : List Byte)
  /-- TAG_REPORT, inbound, rule R86 -/
  | tagReport (payload : List Byte)
  /-- START_INVENTORY, outbound, rule R84 -/
  | startInventory (payload : List Byte)
  /-- WRITE_EPC command, outbound, rule R87 -/
  | writeEpcCmd (payload : List Byte)
  /-- WRITE_EPC response, inbound, rule R88 -/
  | writeEpcRsp (payload : List Byte)
  /-- STOP_INVENTORY, outbound, rule R85 -/
  | stopInventory (payload : List Byte)
  /-- TAG_REPORT seen by the receiver under any protocol control word, rules R79, R170 -/
  | tagReportClassify (pcw : Word16) (payload : List Byte)
  /-- START_INVENTORY seen by the receiver under any protocol control word, rules R79, R170 -/
  | startInventoryClassify (pcw : Word16) (payload : List Byte)
  /-- WRITE_EPC seen by the receiver under any protocol control word, rules R79, R170 -/
  | writeEpcClassify (pcw : Word16) (payload : List Byte)
  /-- STOP_INVENTORY seen by the receiver under any protocol control word, rules R79, R170 -/
  | stopInventoryClassify (pcw : Word16) (payload : List Byte)
  deriving DecidableEq, Repr

/-- The ten FRAME rows of the opcode table (rule R79), in the table's order. -/
inductive FrameRow where
  | any
  | tagReport
  | startInventory
  | writeEpcCmd
  | writeEpcRsp
  | stopInventory
  | tagReportClassify
  | startInventoryClassify
  | writeEpcClassify
  | stopInventoryClassify
  deriving DecidableEq, Repr

/-- Why the decoder gives no operation for the bytes it is handed. -/
inductive DecodeError where
  /-- there is no byte at all -/
  | noRequest
  /-- the bytes end inside an operation -/
  | truncated
  /-- the first byte selects no row of the table -/
  | unknownSelect (b : Byte)
  /-- a byte of a sequence operand is announced by neither 0x00 nor 0x01 -/
  | badContinuation (b : Byte)
  /-- a Boolean operand is neither 0x00 nor 0x01 -/
  | badBoolean (b : Byte)
  /-- the seven header bytes do not match the pattern of the selected FRAME row -/
  | headerMismatch (row : FrameRow)
  deriving DecidableEq, Repr

/-- The row's name in spec/opcode_table.json, letter for letter. -/
def Instr.mnemonic : Instr → String
  | .reset => "RESET"
  | .crcClear => "CRC16.CLEAR"
  | .crcBit => "CRC16.BIT"
  | .crcByte _ => "CRC16.BYTE"
  | .crcCompute _ => "CRC16.COMPUTE"
  | .frameEncode _ _ _ => "FRAME.ENCODE"
  | .frameDecode _ => "FRAME.DECODE"
  | .frameTryDecode _ => "FRAME.TRYDECODE"
  | .rxFeed _ => "RX.FEED"
  | .rxByte _ => "RX.BYTE"
  | .invStart _ _ => "INV.START"
  | .invStop => "INV.STOP"
  | .tagParse _ => "TAG.PARSE"
  | .epcwBuild _ _ _ _ => "EPCW.BUILD"
  | .wresParse _ => "WRES.PARSE"
  | .unassigned => "(unassigned)"
  | .frameAny _ _ _ _ => "FRAME.ANY"
  | .tagReport _ => "TAG_REPORT"
  | .startInventory _ => "START_INVENTORY"
  | .writeEpcCmd _ => "WRITE_EPC.CMD"
  | .writeEpcRsp _ => "WRITE_EPC.RSP"
  | .stopInventory _ => "STOP_INVENTORY"
  | .tagReportClassify _ _ => "TAG_REPORT.CLASSIFY"
  | .startInventoryClassify _ _ => "START_INVENTORY.CLASSIFY"
  | .writeEpcClassify _ _ => "WRITE_EPC.CLASSIFY"
  | .stopInventoryClassify _ _ => "STOP_INVENTORY.CLASSIFY"

end Sys2Proof
end

