-- ==== Sys2Proof/WellFormed.lean ====
section
/-! DEFINITION. Which instructions can be written down: the operand values the frame header's length field
(rule R72) and the request encoding (log entry 4) have room for. It checks nothing the machine itself decides: an
antenna id outside 1 to 4, a character that is no hexadecimal digit or an over-long FRAME.ENCODE payload is
well-formed, and the machine refuses it (rules R122, R172, R184). -/

namespace Sys2Proof

/-- Rule R70: a frame's payload has 0 to 65535 bytes, or there is no frame. -/
def framePayloadFits (payload : List Byte) : Bool := decide (payload.length ≤ 65535)

/-- An antenna id is written in one byte (log entry 4). -/
def antennaIdFits (id : Nat) : Bool := decide (id < 256)

/-- A character of an EPC string is written in one byte (log entry 4). -/
def charFits (c : Char) : Bool := decide (c.toNat < 256)

/-- The instruction has an encoding. -/
def Instr.wellFormed : Instr → Bool
  | .reset => true
  | .crcClear => true
  | .crcBit => true
  | .crcByte _ => true
  | .crcCompute _ => true
  | .frameEncode _ _ _ => true
  | .frameDecode _ => true
  | .frameTryDecode _ => true
  | .rxFeed _ => true
  | .rxByte _ => true
  | .invStart ids _ => ids.all antennaIdFits
  | .invStop => true
  | .tagParse _ => true
  | .epcwBuild old new id _ => old.all charFits && new.all charFits && antennaIdFits id
  | .wresParse _ => true
  | .unassigned => true
  | .frameAny _ _ _ p => framePayloadFits p
  | .tagReport p => framePayloadFits p
  | .startInventory p => framePayloadFits p
  | .writeEpcCmd p => framePayloadFits p
  | .writeEpcRsp p => framePayloadFits p
  | .stopInventory p => framePayloadFits p
  | .tagReportClassify _ p => framePayloadFits p
  | .startInventoryClassify _ p => framePayloadFits p
  | .writeEpcClassify _ p => framePayloadFits p
  | .stopInventoryClassify _ p => framePayloadFits p

end Sys2Proof
end

