-- ==== Sys2Proof/Decode.lean ====
section
/-! DEFINITION. The request encoding: how the caller's byte stream names an operation and its arguments. Rule R91
gives the 4-bit select codes and rule R79 the header patterns; the source gives the arguments no encoding, so their
layout is the model's own (log entry 4):
a byte 0x00 to 0x0F is a select code; 0x10 to 0x19 selects a FRAME row and is followed by that frame's seven header
bytes and N payload bytes; 0x5A is a frame header without a selector, read as the most specific row (log entry 5).
A byte sequence is written as 0x01 before each byte and 0x00 at its close, so that any length can be written. -/

namespace Sys2Proof

open Sys2Proof.Machine

/-- What the decoder gives: a value and the bytes after it, or why there is none. -/
abbrev Parsed (α : Type) := Except DecodeError (α × List Byte)

/-- The value, then what is read from the bytes after it; the first error stands. -/
def parseThen {α β : Type} (x : Parsed α) (f : α → List Byte → Parsed β) : Parsed β :=
  match x with
  | .error e => .error e
  | .ok (a, rest) => f a rest

/-- One byte operand. -/
def takeByte : List Byte → Parsed Byte
  | [] => .error .truncated
  | b :: rest => .ok (b, rest)

/-- One byte-sequence operand: 0x01 before each byte, 0x00 at the close. -/
def takeBytes : List Byte → Parsed (List Byte)
  | [] => .error .truncated
  | c :: rest =>
    if c = 0x00#8 then .ok ([], rest)
    else if c = 0x01#8 then
      match rest with
      | [] => .error .truncated
      | b :: rest' =>
        match takeBytes rest' with
        | .error e => .error e
        | .ok (l, r) => .ok (b :: l, r)
    else .error (.badContinuation c)

/-- One Boolean operand. -/
def takeBool : List Byte → Parsed Bool
  | [] => .error .truncated
  | b :: rest =>
    if b = 0x00#8 then .ok (false, rest) else if b = 0x01#8 then .ok (true, rest) else .error (.badBoolean b)

/-- The antenna id a byte stands for: the byte is the mask bit number `id - 1` modulo 256 (rule R89 (c), log entry 4).
-/
def idOfByte (b : Byte) : Nat := (b + 1#8).toNat

/-- The byte an antenna id is written as. -/
def byteOfId (id : Nat) : Byte := BitVec.ofNat 8 id - 1#8

/-- The character a byte stands for. -/
def charOfByte (b : Byte) : Char := Char.ofNat b.toNat

/-- The byte a character of an EPC string is written as. -/
def byteOfChar (c : Char) : Byte := BitVec.ofNat 8 c.toNat

/-- The 32-bit password operand, most significant byte first (rule R12). -/
def takeWord32 : List Byte → Parsed Word32
  | a :: b :: c :: d :: rest => .ok (ofBe32 a b c d, rest)
  | _ => .error .truncated

/-- One operation of rule R91 and its arguments, from its select code. -/
def decodeOp (op : Nat) (r : List Byte) : Parsed Instr :=
  match op with
  | 0 => .ok (.reset, r)
  | 1 => .ok (.crcClear, r)
  | 2 => .ok (.crcBit, r)
  | 3 => parseThen (takeByte r) fun b r => .ok (.crcByte b, r)
  | 4 => parseThen (takeBytes r) fun l r => .ok (.crcCompute l, r)
  | 5 =>
    parseThen (takeByte r) fun c r =>
    parseThen (takeByte r) fun m r =>
    parseThen (takeBytes r) fun p r => .ok (.frameEncode c m p, r)
  | 6 => parseThen (takeBytes r) fun l r => .ok (.frameDecode l, r)
  | 7 => parseThen (takeBytes r) fun l r => .ok (.frameTryDecode l, r)
  | 8 => parseThen (takeBytes r) fun l r => .ok (.rxFeed l, r)
  | 9 => parseThen (takeByte r) fun b r => .ok (.rxByte b, r)
  | 10 =>
    parseThen (takeBytes r) fun ids r =>
    parseThen (takeBool r) fun c r => .ok (.invStart (ids.map idOfByte) c, r)
  | 11 => .ok (.invStop, r)
  | 12 => parseThen (takeBytes r) fun l r => .ok (.tagParse l, r)
  | 13 =>
    parseThen (takeBytes r) fun old r =>
    parseThen (takeBytes r) fun new r =>
    parseThen (takeByte r) fun id r =>
    parseThen (takeWord32 r) fun pw r =>
    .ok (.epcwBuild (old.map charOfByte) (new.map charOfByte) (idOfByte id) pw, r)
  | 14 => parseThen (takeBytes r) fun l r => .ok (.wresParse l, r)
  | 15 => .ok (.unassigned, r)
  | n => .error (.unknownSelect (BitVec.ofNat 8 n))

/-- The `match` column of rule R79's table, byte by byte, `f[0]` first. -/
def FrameRow.matchBytes : FrameRow → List Byte
  | .any => [0x5A#8, 0x00#8, 0x00#8, 0x00#8, 0x00#8, 0x00#8, 0x00#8]
  | .tagReport => [0x5A#8, 0x00#8, 0x01#8, 0x02#8, 0x00#8, 0x00#8, 0x00#8]
  | .startInventory => [0x5A#8, 0x00#8, 0x01#8, 0x02#8, 0x10#8, 0x00#8, 0x00#8]
  | .writeEpcCmd => [0x5A#8, 0x00#8, 0x01#8, 0x02#8, 0x11#8, 0x00#8, 0x00#8]
  | .writeEpcRsp => [0x5A#8, 0x00#8, 0x01#8, 0x02#8, 0x11#8, 0x00#8, 0x00#8]
  | .stopInventory => [0x5A#8, 0x00#8, 0x01#8, 0x02#8, 0xFF#8, 0x00#8, 0x00#8]
  | .tagReportClassify => [0x5A#8, 0x00#8, 0x00#8, 0x02#8, 0x00#8, 0x00#8, 0x00#8]
  | .startInventoryClassify => [0x5A#8, 0x00#8, 0x00#8, 0x02#8, 0x10#8, 0x00#8, 0x00#8]
  | .writeEpcClassify => [0x5A#8, 0x00#8, 0x00#8, 0x02#8, 0x11#8, 0x00#8, 0x00#8]
  | .stopInventoryClassify => [0x5A#8, 0x00#8, 0x00#8, 0x02#8, 0xFF#8, 0x00#8, 0x00#8]

/-- The `mask` column of rule R79's table, byte by byte. -/
def FrameRow.maskBytes : FrameRow → List Byte
  | .any => [0xFF#8, 0x00#8, 0x00#8, 0x00#8, 0x00#8, 0x00#8, 0x00#8]
  | .tagReport => [0xFF#8, 0xFF#8, 0xFF#8, 0xFF#8, 0xFF#8, 0x00#8, 0x00#8]
  | .startInventory => [0xFF#8, 0xFF#8, 0xFF#8, 0xFF#8, 0xFF#8, 0x00#8, 0x00#8]
  | .writeEpcCmd => [0xFF#8, 0xFF#8, 0xFF#8, 0xFF#8, 0xFF#8, 0x00#8, 0x00#8]
  | .writeEpcRsp => [0xFF#8, 0xFF#8, 0xFF#8, 0xFF#8, 0xFF#8, 0x00#8, 0x00#8]
  | .stopInventory => [0xFF#8, 0xFF#8, 0xFF#8, 0xFF#8, 0xFF#8, 0x00#8, 0x00#8]
  | .tagReportClassify => [0xFF#8, 0x00#8, 0x00#8, 0xFF#8, 0xFF#8, 0x00#8, 0x00#8]
  | .startInventoryClassify => [0xFF#8, 0x00#8, 0x00#8, 0xFF#8, 0xFF#8, 0x00#8, 0x00#8]
  | .writeEpcClassify => [0xFF#8, 0x00#8, 0x00#8, 0xFF#8, 0xFF#8, 0x00#8, 0x00#8]
  | .stopInventoryClassify => [0xFF#8, 0x00#8, 0x00#8, 0xFF#8, 0xFF#8, 0x00#8, 0x00#8]

/-- Rule R79: a header is of a row when its masked bytes are the row's match bytes. -/
def FrameRow.admits (row : FrameRow) (header : List Byte) : Bool :=
  decide (List.zipWith (· &&& ·) header row.maskBytes = row.matchBytes)

/-- The model's selector byte of a FRAME row: 0x10 plus the row's place in the table (log entry 4). -/
def FrameRow.select : FrameRow → Byte
  | .any => 0x10#8
  | .tagReport => 0x11#8
  | .startInventory => 0x12#8
  | .writeEpcCmd => 0x13#8
  | .writeEpcRsp => 0x14#8
  | .stopInventory => 0x15#8
  | .tagReportClassify => 0x16#8
  | .startInventoryClassify => 0x17#8
  | .writeEpcClassify => 0x18#8
  | .stopInventoryClassify => 0x19#8

/-- The FRAME row a selector byte names. -/
def FrameRow.ofSelect (b : Byte) : Option FrameRow :=
  match b.toNat with
  | 16 => some .any
  | 17 => some .tagReport
  | 18 => some .startInventory
  | 19 => some .writeEpcCmd
  | 20 => some .writeEpcRsp
  | 21 => some .stopInventory
  | 22 => some .tagReportClassify
  | 23 => some .startInventoryClassify
  | 24 => some .writeEpcClassify
  | 25 => some .stopInventoryClassify
  | _ => none

/-- The instruction of a FRAME row, from the header fields its mask leaves free and the payload. -/
def FrameRow.instr (row : FrameRow) (w : Word16) (c m : Byte) (p : List Byte) : Instr :=
  match row with
  | .any => .frameAny w c m p
  | .tagReport => .tagReport p
  | .startInventory => .startInventory p
  | .writeEpcCmd => .writeEpcCmd p
  | .writeEpcRsp => .writeEpcRsp p
  | .stopInventory => .stopInventory p
  | .tagReportClassify => .tagReportClassify w p
  | .startInventoryClassify => .startInventoryClassify w p
  | .writeEpcClassify => .writeEpcClassify w p
  | .stopInventoryClassify => .stopInventoryClassify w p

/-- The rows in the order a header without a selector is tried against: a catalogue type with the written protocol
control word, then its receiver-side pattern, then any frame. WRITE_EPC.RSP has WRITE_EPC.CMD's pattern and differs in
direction only (rule R188), so it is reached through its selector (log entry 5). -/
def bareRows : List FrameRow :=
  [.tagReport, .startInventory, .writeEpcCmd, .stopInventory, .tagReportClassify, .startInventoryClassify,
    .writeEpcClassify, .stopInventoryClassify, .any]

/-- Seven header bytes and the N payload bytes they declare (rules R71, R72), read under the row `pick` gives them. -/
def decodeFrame (pick : List Byte → Except DecodeError FrameRow) : List Byte → Parsed Instr
  | f0 :: f1 :: f2 :: f3 :: f4 :: f5 :: f6 :: rest =>
    match pick [f0, f1, f2, f3, f4, f5, f6] with
    | .error e => .error e
    | .ok row =>
      let n := (be16 f5 f6).toNat
      if rest.length < n then .error .truncated
      else .ok (row.instr (be16 f1 f2) f3 f4 (rest.take n), rest.drop n)
  | _ => .error .truncated

/-- The selected row, when the header is of it. -/
def pickSelected (row : FrameRow) (header : List Byte) : Except DecodeError FrameRow :=
  if row.admits header then .ok row else .error (.headerMismatch row)

/-- The most specific row the header is of. -/
def pickBare (header : List Byte) : Except DecodeError FrameRow :=
  match bareRows.find? (·.admits header) with
  | some row => .ok row
  | none => .error (.headerMismatch .any)

/-- The next operation of a request stream and the bytes after it: total on any bytes. -/
def decode : List Byte → Parsed Instr
  | [] => .error .noRequest
  | b :: rest =>
    if b = sync then decodeFrame pickBare (b :: rest)
    else if b.toNat < 16 then decodeOp b.toNat rest
    else
      match FrameRow.ofSelect b with
      | some row => decodeFrame (pickSelected row) rest
      | none => .error (.unknownSelect b)

/-- A byte-sequence operand as written. -/
def encodeBytes : List Byte → List Byte
  | [] => [0x00#8]
  | b :: rest => 0x01#8 :: b :: encodeBytes rest

/-- A Boolean operand as written. -/
def encodeBool (c : Bool) : Byte := if c then 0x01#8 else 0x00#8

/-- A FRAME row as written: its selector, the seven header bytes of rule R71, the payload. -/
def encodeFrame (row : FrameRow) (w : Word16) (c m : Byte) (p : List Byte) : List Byte :=
  row.select :: sync :: hi8 w :: lo8 w :: c :: m ::
    hi8 (BitVec.ofNat 16 p.length) :: lo8 (BitVec.ofNat 16 p.length) :: p

/-- The bytes of a well-formed instruction. -/
def encode : Instr → List Byte
  | .reset => [0x00#8]
  | .crcClear => [0x01#8]
  | .crcBit => [0x02#8]
  | .crcByte b => [0x03#8, b]
  | .crcCompute l => 0x04#8 :: encodeBytes l
  | .frameEncode c m p => 0x05#8 :: c :: m :: encodeBytes p
  | .frameDecode l => 0x06#8 :: encodeBytes l
  | .frameTryDecode l => 0x07#8 :: encodeBytes l
  | .rxFeed l => 0x08#8 :: encodeBytes l
  | .rxByte b => [0x09#8, b]
  | .invStart ids c => 0x0A#8 :: (encodeBytes (ids.map byteOfId) ++ [encodeBool c])
  | .invStop => [0x0B#8]
  | .tagParse l => 0x0C#8 :: encodeBytes l
  | .epcwBuild old new id pw =>
    0x0D#8 :: (encodeBytes (old.map byteOfChar) ++ encodeBytes (new.map byteOfChar) ++ byteOfId id :: be32 pw)
  | .wresParse l => 0x0E#8 :: encodeBytes l
  | .unassigned => [0x0F#8]
  | .frameAny w c m p => encodeFrame .any w c m p
  | .tagReport p => encodeFrame .tagReport pcw catInventory midTagReport p
  | .startInventory p => encodeFrame .startInventory pcw catInventory midStart p
  | .writeEpcCmd p => encodeFrame .writeEpcCmd pcw catInventory midWriteEpc p
  | .writeEpcRsp p => encodeFrame .writeEpcRsp pcw catInventory midWriteEpc p
  | .stopInventory p => encodeFrame .stopInventory pcw catInventory midStop p
  | .tagReportClassify w p => encodeFrame .tagReportClassify w catInventory midTagReport p
  | .startInventoryClassify w p => encodeFrame .startInventoryClassify w catInventory midStart p
  | .writeEpcClassify w p => encodeFrame .writeEpcClassify w catInventory midWriteEpc p
  | .stopInventoryClassify w p => encodeFrame .stopInventoryClassify w catInventory midStop p

/-- The bytes of a table word, bit 0 the least significant bit of the first byte. -/
def tableBytes : Nat → Nat → List Byte
  | 0, _ => []
  | n + 1, w => BitVec.ofNat 8 w :: tableBytes n (w / 256)

/-- A table word as the bytes of the request stream. A FRAME row's 56 bits are seven header bytes; a word whose first
byte is not the sync byte and whose last is was read as one hexadecimal number with `f[0]` leftmost (rule R92), and is
turned round (log entry 5). -/
def tableWordBytes (nbits w : Nat) : List Byte :=
  let l := tableBytes ((nbits + 7) / 8) w
  if l.head? ≠ some sync ∧ l.getLast? = some sync then l.reverse else l

/-- The zero bytes that stand after a table word: as many as its operands can take. -/
def tableZeros (l : List Byte) : List Byte :=
  List.replicate (if l.head? = some sync then (memRead2 l 5).toNat else 16) 0x00#8

/-- The bytes of exactly the one instruction a table word stands for (all of the padded bytes, where it is none). -/
def tableRequest (nbits w : Nat) : List Byte :=
  let l := tableWordBytes nbits w
  let padded := l ++ tableZeros l
  match decode padded with
  | .ok (_, rest) => padded.take (padded.length - rest.length)
  | .error _ => padded

/-- The instruction the decoder reads from a table word (zero bits after it). -/
def decodeTableWord (nbits w : Nat) : Option Instr :=
  let l := tableWordBytes nbits w
  match decode (l ++ tableZeros l) with
  | .ok (i, _) => some i
  | .error _ => none

end Sys2Proof
end

