-- ==== Sys2Proof/Machine/State.lean ====
section
/-! DEFINITION. The state of one instance of the block: the CRC register, the reassembly buffer, the straps (rules R30
to R33, R40), and the two ends of the model's interface to the caller, the requests not yet applied and the results
returned so far (rule R245, log entry 1). -/

namespace Sys2Proof.Machine

/-- A frame value, the triple of rule R120: what encode takes and decode gives. -/
structure Frame where
  category : Byte
  messageId : Byte
  payload : List Byte
  deriving DecidableEq, Repr

/-- The two kinds of event, rule R148; the set is closed. -/
inductive Event where
  | validFrame (frame : Frame)
  | corruptFrameDetected
  deriving DecidableEq, Repr

/-- The result of FRAME.DECODE, rule R124. -/
inductive DecodeOutcome where
  | ok (frame : Frame)
  | crcMismatch
  | malformed
  deriving DecidableEq, Repr

/-- The result of FRAME.TRYDECODE, rule R126. -/
inductive TryOutcome where
  | decoded (frame : Frame) (bytesConsumed : Nat)
  | needMoreData
  | resync (bytesToDrop : Nat)
  deriving DecidableEq, Repr

/-- The result of TAG.PARSE, rule R175. -/
inductive TagOutcome where
  | report (epcHex : List Char) (antennaId : Byte)
  | parseFailure
  deriving DecidableEq, Repr

/-- The result of WRES.PARSE, rules R186, R187. -/
inductive WriteOutcome where
  | success
  | tagOutOfRange
  | invalidParameter
  | passwordOrLockError
  | unknownError (code : Byte)
  | parseFailure
  deriving DecidableEq, Repr

/-- Which parser reads a ValidFrame and what it gives, rule R170. -/
inductive Classified where
  | tagReport (outcome : TagOutcome)
  | writeResponse (outcome : WriteOutcome)
  | unrecognized (frame : Frame)
  deriving DecidableEq, Repr

/-- The fields of a WRITE_EPC command payload that its layout leaves open, rule R87. -/
structure WriteEpcFields where
  /-- the antenna field's last byte, `1 << (antennaId - 1)` -/
  antenna : Byte
  newEpc : List Byte
  oldEpc : List Byte
  password : Word32
  deriving DecidableEq, Repr

/-- What an outbound payload carries when it has its type's layout, rules R84, R85, R87. -/
inductive Layout where
  | startInventory (mask : Byte) (continuous : Bool)
  | stopInventory
  | writeEpc (fields : WriteEpcFields)
  /-- the payload does not have the layout of the frame's type; the codec carries it all the same (rule R76) -/
  | other
  deriving DecidableEq, Repr

/-- One value an operation returned to the caller (rule R245). -/
inductive Result where
  /-- CRC16.COMPUTE's uint16, rule R104 -/
  | crc (value : Word16)
  /-- an encoded frame, offset 0 first: FRAME.ENCODE, INV.START, INV.STOP, EPCW.BUILD (rule R43) -/
  | frame (bytes : List Byte)
  /-- EPCW.BUILD's error value, rule R205 -/
  | invalidEpcLength
  | decode (outcome : DecodeOutcome)
  | tryDecode (outcome : TryOutcome)
  /-- the events of one feed, in order, rule R42 -/
  | events (list : List Event)
  | tag (outcome : TagOutcome)
  | write (outcome : WriteOutcome)
  /-- an outbound frame on the TX byte stream, with its payload's layout (FRAME rows, log entry 6) -/
  | sent (bytes : List Byte) (layout : Layout)
  /-- the consumer's reading of the ValidFrames of one feed, in order (FRAME rows, rule R170, log entry 6) -/
  | classified (list : List Classified)
  deriving DecidableEq, Repr

/-- One instance of the block. -/
structure State where
  /-- CRC_FAIL_DROP, BUF_CAP, BITLEN_SIZE: rules R8, R40 -/
  straps : Straps
  /-- the 16-bit CRC working register, rule R31 -/
  crc : Word16
  /-- the reassembly buffer, offset 0 the oldest byte: rules R32, R50 -/
  buf : List Byte
  /-- the caller's requests not yet applied, as bytes: the model's own field, rule R245, log entry 1 -/
  requests : List Byte
  /-- the values returned so far, oldest first: the model's own field, rule R245, log entry 1 -/
  results : List Result
  deriving DecidableEq, Repr

/-- The block has no faults: nothing it detects stops it (rule R200), and no treatment of
93_implementation_defined.md is `fault` or `stuck`. The type has no constructor, so no step can answer a fault. -/
inductive Fault
  deriving DecidableEq, Repr

/-- The argument combinations the spec gives no step (`refuse`, rules R13, R212), and the bytes that are no request. A
refusal is safe: no claim about the block is proved of such a run. -/
inductive Refusal where
  /-- raised by exec for an instruction that has no meaning yet; safe -/
  | notModelled (mnemonic : String)
  /-- FRAME.ENCODE, EPCW.BUILD and the FRAME rows, for a payload over 65535 bytes: rule R122, U3; safe -/
  | payloadTooLong
  /-- RX.FEED, RX.BYTE and the inbound FRAME rows, beyond a finite BUF_CAP: rule R33, U4; safe -/
  | bufferCapacityExceeded
  /-- INV.START and EPCW.BUILD, for an antenna id outside 1 to 4: rules R172, R184, U6, U7; safe -/
  | antennaIdOutOfRange
  /-- EPCW.BUILD, for a character that is no hexadecimal digit: rule R184, U6; safe -/
  | notHexDigits
  /-- EPCW.BUILD, for an old EPC of odd length: rule R184, U6; safe -/
  | oddOldEpcLength
  /-- EPCW.BUILD, for an old EPC whose bit length does not fit BITLEN_SIZE bytes: rule R182, U11; safe -/
  | bitLengthDoesNotFit
  /-- select code 0xF: rule R91, U8; safe -/
  | unassignedSelectCode
  /-- step, for request bytes the decoder reads no operation from (log entry 4); safe -/
  | undecodable (reason : DecodeError)
  deriving DecidableEq, Repr

/-- The outcome of an operation. -/
abbrev Outcome := Host.Outcome State Fault Refusal

/-- The machine right after RESET (rule R46): `buf` empty, `crc` 0x0000, no event pending, the straps at the defaults
of rule R8 (log entry 2), nothing requested and nothing returned (log entry 1). -/
def State.reset : State :=
  { straps := Straps.default, crc := 0x0000#16, buf := [], requests := [], results := [] }

end Sys2Proof.Machine
end

