-- ==== Sys2Proof/Machine/Ops.lean ====
section
/-! DEFINITION. The named operations over state: the CRC generator (rules R102 to R104), the frame codec's functions
(rules R121, R124, R126), the scan of the reassembly buffer (rule R141) and the updates of State every meaning is
written with. The block takes no exceptions and returns from none (rules R200, R208, R209), so no operation here saves
a program counter or a status; what stands in that place is the silent change of `buf` and the event of each error
kind, made by `scanPass`. -/

namespace Sys2Proof.Machine

/-! Updates of State. -/

/-- `crc <- v`, rule R31. -/
def State.setCrc (s : State) (v : Word16) : State := { s with crc := v }

/-- `buf <- b`, a whole-sequence update, rule R13. -/
def State.setBuf (s : State) (b : List Byte) : State := { s with buf := b }

/-- The caller's stream after a request has been taken from it. -/
def State.setRequests (s : State) (r : List Byte) : State := { s with requests := r }

/-- `return <Outcome>`, rule R13: one more value handed to the caller. -/
def State.emit (s : State) (r : Result) : State := { s with results := s.results ++ [r] }

/-! The reassembly buffer as a memory (rule R50). -/

/-- The buffer as cells: offset and byte, offsets rising from 0 (log entry 7). -/
def bufCells (m : List Byte) : List Host.Cell := m.zipIdx.map fun p => (p.2, p.1)

/-- The byte at offset `k`, `none` where the buffer has no such offset (rule R50). -/
def bufByte (m : List Byte) (k : Nat) : Option Byte := m[k]?

/-- The addresses of a list of cells rise strictly. -/
def cellsRising : List Host.Cell → Bool
  | [] => true
  | [_] => true
  | a :: b :: rest => decide (a.1 < b.1) && cellsRising (b :: rest)

/-- The canonical form of the memory: its cells' addresses rise strictly, and it lists no unlisted address (there is
none, offsets beyond the length do not exist). -/
def Memory.wf (m : List Byte) : Bool := cellsRising (bufCells m)

/-! The CRC generator. -/

/-- One shift-and-conditional-XOR step, rule R102. -/
def crcStep (crc : Word16) : Word16 :=
  let out := crc.getLsbD 15
  let shifted := crc <<< 1
  if out then shifted ^^^ poly else shifted

/-- `n` steps, one after the other. -/
def crcSteps : Nat → Word16 → Word16
  | 0, crc => crc
  | n + 1, crc => crcSteps n (crcStep crc)

/-- One byte, rule R103: XOR into the top 8 bits, then 8 steps. -/
def crcAdd (crc : Word16) (b : Byte) : Word16 := crcSteps 8 (crc ^^^ (b.setWidth 16 <<< 8))

/-- `compute(bytes)`, rule R104: from CRC_INIT, byte by byte, no final XOR. -/
def crcOf (bytes : List Byte) : Word16 := bytes.foldl crcAdd crcInit

/-! The frame codec. -/

/-- The bytes the CRC covers: frame offsets 1 to `6 + N` (rules R71, R73). -/
def frameBody (w : Word16) (c m : Byte) (p : List Byte) : List Byte :=
  bytes16 w ++ [c, m] ++ lenField p.length ++ p

/-- The whole frame of rule R71 under protocol control word `w`, for a payload that fits (rule R122). -/
def wireFrame (w : Word16) (c m : Byte) (p : List Byte) : List Byte :=
  [sync] ++ frameBody w c m p ++ bytes16 (crcOf (frameBody w c m p))

/-- FRAME.ENCODE of a triple, rule R121: `none` where it refuses (rule R122). -/
def encodeFrameBytes (c m : Byte) (p : List Byte) : Option (List Byte) :=
  if p.length > lenMax then none else some (wireFrame pcw c m p)

/-- The declared total size `9 + N` of the frame whose header starts the sequence (rules R72, R74), a natural number
that never wraps (rule R57). -/
def declaredTotal (b : List Byte) : Nat := overhead + (memRead2 b 5).toNat

/-- FRAME.DECODE, rule R124. -/
def decodeSlice (s : List Byte) : DecodeOutcome :=
  let t := s.length
  if t < overhead ∨ memRead1 s 0 ≠ sync ∨ t ≠ declaredTotal s then .malformed
  else if crcOf (slice s 1 (t - 2)) = memRead2 s (t - 2) then
    .ok { category := memRead1 s 3, messageId := memRead1 s 4, payload := slice s 7 (t - 2) }
  else .crcMismatch

/-- The bytes a CRC mismatch removes, rules R129, R146. -/
def mismatchDrop (drop : CrcFailDrop) (total : Nat) : Nat :=
  match drop with
  | .candidate => total
  | .oneByte => 1

/-- FRAME.TRYDECODE, rule R126. `Malformed` cannot occur at its inner decode (rule R125); that arm is never taken. -/
def tryDecodeBuffer (drop : CrcFailDrop) (b : List Byte) : TryOutcome :=
  if b.length = 0 then .needMoreData
  else
    match indexOf sync b with
    | none => .resync b.length
    | some k =>
      if k > 0 then .resync k
      else if b.length < hdrLen then .needMoreData
      else if b.length < declaredTotal b then .needMoreData
      else
        match decodeSlice (b.take (declaredTotal b)) with
        | .ok f => .decoded f (declaredTotal b)
        | .crcMismatch => .resync (mismatchDrop drop (declaredTotal b))
        | .malformed => .needMoreData

/-! The stream reassembler. -/

/-- What one pass of steps 2 to 6 of rule R141 does. -/
inductive PassResult where
  /-- the feed stops with this buffer (steps 2, 4 and 5) -/
  | stop (buf : List Byte)
  /-- an event is emitted and the scan resumes on this buffer (step 6, step 7) -/
  | resume (event : Event) (buf : List Byte)
  deriving DecidableEq, Repr

/-- Steps 2 to 6 of rule R141 on the buffer. `Malformed` cannot occur at step 6 (rule R125); that arm is never
taken. -/
def scanPass (drop : CrcFailDrop) (buf : List Byte) : PassResult :=
  match indexOf sync buf with
  | none => .stop []
  | some k =>
    let b := buf.drop k
    if b.length < hdrLen then .stop b
    else if b.length < declaredTotal b then .stop b
    else
      match decodeSlice (b.take (declaredTotal b)) with
      | .ok f => .resume (.validFrame f) (b.drop (declaredTotal b))
      | .crcMismatch => .resume .corruptFrameDetected (b.drop (mismatchDrop drop (declaredTotal b)))
      | .malformed => .stop b

/-- Step 7 of rule R141: passes until one stops, with a bound on their number. -/
def scanFuel (drop : CrcFailDrop) : Nat → List Byte → List Event × List Byte
  | 0, b => ([], b)
  | n + 1, b =>
    match scanPass drop b with
    | .stop b' => ([], b')
    | .resume e b' => (e :: (scanFuel drop n b').1, (scanFuel drop n b').2)

/-- Steps 2 to 7 of rule R141: the events and the buffer at the stop. Every pass that resumes has removed at least one
byte (rule R147), so one pass more than there are bytes always suffices. -/
def scan (drop : CrcFailDrop) (b : List Byte) : List Event × List Byte := scanFuel drop (b.length + 1) b

/-- Step 1's test, rule R33: the feed would make the buffer longer than a finite BUF_CAP. -/
def overCapacity (cap : Option Nat) (len : Nat) : Bool :=
  match cap with
  | none => false
  | some n => decide (n < len)

/-- RX.FEED, rule R141: append, scan, return the events. -/
def feed (newBytes : List Byte) (s : State) : Outcome :=
  if overCapacity s.straps.bufCap (s.buf.length + newBytes.length) then .refused .bufferCapacityExceeded
  else
    let r := scan s.straps.crcFailDrop (s.buf ++ newBytes)
    .next ((s.setBuf r.2).emit (.events r.1))

/-! The payload layer. -/

/-- The START_INVENTORY payload, rule R84. -/
def startPayload (mask : Byte) (continuous : Bool) : List Byte :=
  [0x00#8, 0x00#8, 0x00#8, mask, if continuous then 0x01#8 else 0x00#8]

/-- The match filter's fields, rule R182. -/
def matchFields (size : BitlenSize) (oldEpc : List Byte) : List Byte :=
  [0x01#8] ++ [0x00#8, 0x20#8] ++ bitlenField size (oldEpc.length * 8) ++ oldEpc

/-- The WRITE_EPC command payload, rules R87, R179 to R183. -/
def writeEpcPayload (size : BitlenSize) (f : WriteEpcFields) : List Byte :=
  let content := bytes16 (pcWord (f.newEpc.length / 2)) ++ f.newEpc
  let fields := matchFields size f.oldEpc
  [0x00#8, 0x00#8, 0x00#8, f.antenna] ++ [0x01#8] ++ [0x00#8, 0x01#8]
    ++ lenField (2 + f.newEpc.length) ++ content
    ++ ([0x01#8] ++ lenField fields.length ++ fields)
    ++ ([0x02#8] ++ be32 f.password)

/-- TAG.PARSE, rules R175, R176. -/
def parseTag (p : List Byte) : TagOutcome :=
  if p.length < 2 then .parseFailure
  else
    let e := (memRead2 p 0).toNat
    if p.length < 2 + e then .parseFailure
    else if p.length < 5 + e then .parseFailure
    else .report (hexUpper (slice p 2 (2 + e))) (memRead1 p (4 + e))

/-- The result codes of rule R88. -/
def writeOutcomeOf (code : Byte) : WriteOutcome :=
  if code = 0x00#8 then .success
  else if code = 0x03#8 then .invalidParameter
  else if code = 0x08#8 then .passwordOrLockError
  else if code = 0x10#8 then .tagOutOfRange
  else .unknownError code

/-- WRES.PARSE, rules R186, R187. -/
def parseWrite : List Byte → WriteOutcome
  | [] => .parseFailure
  | code :: _ => writeOutcomeOf code

/-- Which parser reads a frame, rule R170: by (category, messageId) alone. -/
def classifyFrame (f : Frame) : Classified :=
  if f.category = catInventory ∧ f.messageId = midTagReport then .tagReport (parseTag f.payload)
  else if f.category = catInventory ∧ f.messageId = midWriteEpc then .writeResponse (parseWrite f.payload)
  else .unrecognized f

/-- What the consumer makes of one event: CorruptFrameDetected goes to no parser (rule R170). -/
def classifyEvent : Event → Option Classified
  | .validFrame f => some (classifyFrame f)
  | .corruptFrameDetected => none

/-- The layout of a START_INVENTORY payload, rule R84. DESIGN CHOICE (log entry 6): any mask byte is read as R84's mask,
bits 7 to 4 included, which rule R81 (c) gives as 0 for antenna ids 1 to 4. -/
def readStart (p : List Byte) : Layout :=
  let mask := memRead1 p 3
  if p = startPayload mask true then .startInventory mask true
  else if p = startPayload mask false then .startInventory mask false
  else .other

/-- The layout of a STOP_INVENTORY payload, rule R85. -/
def readStop (p : List Byte) : Layout := if p = [] then .stopInventory else .other

/-- The fields of a WRITE_EPC command payload at the offsets of rule R87. -/
def writeEpcFieldsAt (size : BitlenSize) (p : List Byte) : WriteEpcFields :=
  let e := (memRead2 p 7).toNat - 2
  let o := (memRead2 p (12 + e)).toNat - (3 + size.bytes)
  let q := 17 + e + size.bytes
  { antenna := memRead1 p 3
    newEpc := slice p 11 (11 + e)
    oldEpc := slice p q (q + o)
    password := ofBe32 (memRead1 p (q + o + 1)) (memRead1 p (q + o + 2)) (memRead1 p (q + o + 3))
      (memRead1 p (q + o + 4)) }

/-- The layout of a WRITE_EPC command payload, rule R87: the fields at its offsets, when the payload is the one rule
R87 lays out for them, the antenna byte has one of bits 0 to 3 (rule R181), the new EPC is whole words (rule R180) and
the bit length fits (rule R182). -/
def readWriteEpc (size : BitlenSize) (p : List Byte) : Layout :=
  let f := writeEpcFieldsAt size p
  if p = writeEpcPayload size f ∧ f.antenna ∈ [0x01#8, 0x02#8, 0x04#8, 0x08#8] ∧ f.newEpc.length % 2 = 0
      ∧ bitlenFits size (f.oldEpc.length * 8) then .writeEpc f
  else .other

/-- An inbound frame on the RX byte stream (FRAME rows, log entry 6): its bytes are fed to the reassembler. -/
def receive (w : Word16) (c m : Byte) (p : List Byte) (s : State) : Outcome :=
  if p.length > lenMax then .refused .payloadTooLong else feed (wireFrame w c m p) s

/-- An inbound frame of a catalogue type (log entry 6): the feed, then the consumer's reading of its ValidFrames
(rule R170). -/
def receiveClassified (w : Word16) (c m : Byte) (p : List Byte) (s : State) : Outcome :=
  if p.length > lenMax then .refused .payloadTooLong
  else if overCapacity s.straps.bufCap (s.buf.length + (wireFrame w c m p).length) then
    .refused .bufferCapacityExceeded
  else
    let r := scan s.straps.crcFailDrop (s.buf ++ wireFrame w c m p)
    .next (((s.setBuf r.2).emit (.events r.1)).emit (.classified (r.1.filterMap classifyEvent)))

/-- An outbound frame on the TX byte stream (FRAME rows, log entry 6): no state of the block is touched (rule R65). -/
def transmit (m : Byte) (layout : Layout) (p : List Byte) (s : State) : Outcome :=
  if p.length > lenMax then .refused .payloadTooLong
  else .next (s.emit (.sent (wireFrame pcw catInventory m p) layout))

/-- `return FRAME.ENCODE(…)` of the builders, rules R121, R122. -/
def returnFrame (c m : Byte) (p : List Byte) (s : State) : Outcome :=
  match encodeFrameBytes c m p with
  | some f => .next (s.emit (.frame f))
  | none => .refused .payloadTooLong

/-! Taking a request from the caller's stream. -/

/-- What the caller has requested next. -/
inductive Fetched where
  /-- nothing is requested: the block is idle and holds `buf` (rule R216) -/
  | idle
  /-- the bytes are no request -/
  | undecodable (reason : DecodeError)
  /-- an operation, and the requests after it -/
  | operation (i : Instr) (rest : List Byte)
  deriving DecidableEq, Repr

/-- The next request of the stream. -/
def fetch (s : State) : Fetched :=
  match s.requests with
  | [] => .idle
  | b :: rest =>
    match decode (b :: rest) with
    | .ok (i, r) => .operation i r
    | .error e => .undecodable e

end Sys2Proof.Machine
end

