-- ==== Sys2Proof/Machine/Codec.lean ====
section
/-! DEFINITION. The FrameCodec's operations, 41_frame_codec.md. No state is read or written but the strap
CRC_FAIL_DROP, which FRAME.TRYDECODE reads (rule R120); each CRC16.COMPUTE inside is a pure function (rule R241), so
`crc` is untouched (log entry 8). -/

namespace Sys2Proof.Machine

/-- FRAME.ENCODE(category, messageId, payload), rules R121, R122. -/
def execFrameEncode (c m : Byte) (p : List Byte) (s : State) : Outcome := returnFrame c m p s

/-- FRAME.DECODE(s), rules R124, R125. -/
def execFrameDecode (l : List Byte) (s : State) : Outcome := .next (s.emit (.decode (decodeSlice l)))

/-- FRAME.TRYDECODE(b), rules R126 to R129. -/
def execFrameTryDecode (b : List Byte) (s : State) : Outcome :=
  .next (s.emit (.tryDecode (tryDecodeBuffer s.straps.crcFailDrop b)))

end Sys2Proof.Machine
end

