-- ==== Sys2Proof/Machine/Crc16.lean ====
section
/-! DEFINITION. The CRC16Engine's operations, 40_crc16.md. -/

namespace Sys2Proof.Machine

/-- CRC16.CLEAR, rule R101. -/
def execCrcClear (s : State) : Outcome := .next (s.setCrc crcInit)

/-- CRC16.BIT, rule R102. -/
def execCrcBit (s : State) : Outcome := .next (s.setCrc (crcStep s.crc))

/-- CRC16.BYTE(b), rule R103. -/
def execCrcByte (b : Byte) (s : State) : Outcome := .next (s.setCrc (crcAdd s.crc b))

/-- CRC16.COMPUTE(bytes), rule R104: the register is left with the result (decision D27). -/
def execCrcCompute (bytes : List Byte) (s : State) : Outcome :=
  .next ((s.setCrc (crcOf bytes)).emit (.crc (crcOf bytes)))

end Sys2Proof.Machine
end

