-- ==== Sys2Proof/Machine/Payload.lean ====
section
/-! DEFINITION. The payload layer's operations, 43_payload_layer.md, and the unassigned select code, rule R91. -/

namespace Sys2Proof.Machine

/-- INV.START(antennaIds, continuous), rules R171, R172. -/
def execInvStart (ids : List Nat) (continuous : Bool) (s : State) : Outcome :=
  if ids.all antennaIdOk then returnFrame catInventory midStart (startPayload (antennaMask ids) continuous) s
  else .refused .antennaIdOutOfRange

/-- INV.STOP(), rule R173. -/
def execInvStop (s : State) : Outcome := returnFrame catInventory midStop [] s

/-- TAG.PARSE(payload), rules R175 to R177. -/
def execTagParse (p : List Byte) (s : State) : Outcome := .next (s.emit (.tag (parseTag p)))

/-- EPCW.BUILD(oldEpcHex, newEpcHex, antennaId, password), rules R179 to R184, the tests in rule R179's order. -/
def execEpcwBuild (old new : List Char) (antennaId : Nat) (password : Word32) (s : State) : Outcome :=
  if ¬ hexDigits old ∨ ¬ hexDigits new then .refused .notHexDigits
  else if old.length % 2 ≠ 0 then .refused .oddOldEpcLength
  else if ¬ antennaIdOk antennaId then .refused .antennaIdOutOfRange
  else if new.length % 4 ≠ 0 then .next (s.emit .invalidEpcLength)
  else
    let f : WriteEpcFields :=
      { antenna := antennaBit antennaId, newEpc := bytesOfHex new, oldEpc := bytesOfHex old, password := password }
    if ¬ bitlenFits s.straps.bitlenSize (f.oldEpc.length * 8) then .refused .bitLengthDoesNotFit
    else returnFrame catInventory midWriteEpc (writeEpcPayload s.straps.bitlenSize f) s

/-- WRES.PARSE(payload), rules R186, R187. -/
def execWresParse (p : List Byte) (s : State) : Outcome := .next (s.emit (.write (parseWrite p)))

/-- Select code 0xF, "not assigned: `refuse`", rule R91. -/
def execUnassigned (_s : State) : Outcome := .refused .unassignedSelectCode

end Sys2Proof.Machine
end

