-- ==== Sys2Proof/Machine/Reassembler.lean ====
section
/-! DEFINITION. The StreamReassembler's operations, 42_stream_reassembler.md, and RESET, 70_reset_and_hazards.md. -/

namespace Sys2Proof.Machine

/-- RX.FEED(newBytes), rule R141. -/
def execRxFeed (newBytes : List Byte) (s : State) : Outcome := feed newBytes s

/-- RX.BYTE(b), rule R150: the feed of one byte. -/
def execRxByte (b : Byte) (s : State) : Outcome := feed [b] s

/-- RESET, rule R231: no event is emitted, the straps keep their values; what earlier operations returned was returned
by them (rule R42, log entry 1). -/
def execReset (s : State) : Outcome := .next ((s.setBuf []).setCrc crcInit)

end Sys2Proof.Machine
end

