-- ==== Sys2Proof/Machine/Wire.lean ====
section
/-! DEFINITION. The FRAME rows of the opcode table (rules R78, R79, R92): one whole frame of the row's pattern on the
block's wire interface, in the row's direction (log entry 6). Inbound, the frame's bytes are fed to the reassembler
(rule R80) and, for a catalogue type, the consumer reads the ValidFrames of that feed (rule R170). Outbound, the frame
goes to the transport and the block keeps no copy (rules R43, R65); the result names the payload's layout. -/

namespace Sys2Proof.Machine

/-- FRAME.ANY, inbound: rules R71, R80. The reassembler delivers it uninterpreted. -/
def execFrameAny (w : Word16) (c m : Byte) (p : List Byte) (s : State) : Outcome := receive w c m p s

/-- TAG_REPORT, inbound: rules R78, R86. -/
def execTagReport (p : List Byte) (s : State) : Outcome := receiveClassified pcw catInventory midTagReport p s

/-- START_INVENTORY, outbound: rules R78, R84. -/
def execStartInventory (p : List Byte) (s : State) : Outcome := transmit midStart (readStart p) p s

/-- WRITE_EPC command, outbound: rules R78, R87. -/
def execWriteEpcCmd (p : List Byte) (s : State) : Outcome :=
  transmit midWriteEpc (readWriteEpc s.straps.bitlenSize p) p s

/-- WRITE_EPC response, inbound: rules R78, R88. -/
def execWriteEpcRsp (p : List Byte) (s : State) : Outcome := receiveClassified pcw catInventory midWriteEpc p s

/-- STOP_INVENTORY, outbound: rules R78, R85, R174. -/
def execStopInventory (p : List Byte) (s : State) : Outcome := transmit midStop (readStop p) p s

/-- TAG_REPORT at the receiver under any protocol control word: rules R75, R79, R170. -/
def execTagReportClassify (w : Word16) (p : List Byte) (s : State) : Outcome :=
  receiveClassified w catInventory midTagReport p s

/-- START_INVENTORY at the receiver under any protocol control word, read by no parser: rules R75, R79, R170. -/
def execStartInventoryClassify (w : Word16) (p : List Byte) (s : State) : Outcome :=
  receiveClassified w catInventory midStart p s

/-- WRITE_EPC at the receiver under any protocol control word: rules R75, R79, R170, R188. -/
def execWriteEpcClassify (w : Word16) (p : List Byte) (s : State) : Outcome :=
  receiveClassified w catInventory midWriteEpc p s

/-- STOP_INVENTORY at the receiver under any protocol control word, read by no parser: rules R75, R79, R170. -/
def execStopInventoryClassify (w : Word16) (p : List Byte) (s : State) : Outcome :=
  receiveClassified w catInventory midStop p s

end Sys2Proof.Machine
end

