-- ==== Sys2Proof/Machine/Dispatch.lean ====
section
/-! DEFINITION. One arm per row of the opcode table, each a call of that row's own meaning. -/

namespace Sys2Proof.Machine

def exec (i : Instr) (s : State) : Host.Outcome State Fault Refusal :=
  match i with
  | .reset => Sys2Proof.Machine.execReset s
  | .crcClear => Sys2Proof.Machine.execCrcClear s
  | .crcBit => Sys2Proof.Machine.execCrcBit s
  | .crcByte b => Sys2Proof.Machine.execCrcByte b s
  | .crcCompute bytes => Sys2Proof.Machine.execCrcCompute bytes s
  | .frameEncode c m p => Sys2Proof.Machine.execFrameEncode c m p s
  | .frameDecode l => Sys2Proof.Machine.execFrameDecode l s
  | .frameTryDecode b => Sys2Proof.Machine.execFrameTryDecode b s
  | .rxFeed newBytes => Sys2Proof.Machine.execRxFeed newBytes s
  | .rxByte b => Sys2Proof.Machine.execRxByte b s
  | .invStart ids continuous => Sys2Proof.Machine.execInvStart ids continuous s
  | .invStop => Sys2Proof.Machine.execInvStop s
  | .tagParse p => Sys2Proof.Machine.execTagParse p s
  | .epcwBuild old new antennaId password => Sys2Proof.Machine.execEpcwBuild old new antennaId password s
  | .wresParse p => Sys2Proof.Machine.execWresParse p s
  | .unassigned => Sys2Proof.Machine.execUnassigned s
  | .frameAny w c m p => Sys2Proof.Machine.execFrameAny w c m p s
  | .tagReport p => Sys2Proof.Machine.execTagReport p s
  | .startInventory p => Sys2Proof.Machine.execStartInventory p s
  | .writeEpcCmd p => Sys2Proof.Machine.execWriteEpcCmd p s
  | .writeEpcRsp p => Sys2Proof.Machine.execWriteEpcRsp p s
  | .stopInventory p => Sys2Proof.Machine.execStopInventory p s
  | .tagReportClassify w p => Sys2Proof.Machine.execTagReportClassify w p s
  | .startInventoryClassify w p => Sys2Proof.Machine.execStartInventoryClassify w p s
  | .writeEpcClassify w p => Sys2Proof.Machine.execWriteEpcClassify w p s
  | .stopInventoryClassify w p => Sys2Proof.Machine.execStopInventoryClassify w p s

end Sys2Proof.Machine
end

