-- ==== Sys2Proof/Machine/Step.lean ====
section
/-! DEFINITION. One step: the block applies the caller's next request whole (rules R14, R61), or, with none pending,
stays as it is (rules R216, R245). -/

namespace Sys2Proof.Machine

def step (s : State) : Host.Outcome State Fault Refusal :=
  match fetch s with
  | .idle => .next s
  | .undecodable e => .refused (.undecodable e)
  | .operation i rest => exec i (s.setRequests rest)

/-- The state whose very next step runs the instruction of a table word: that one request stands in the caller's
stream (log entry 5). -/
def State.withFetchWord (s : State) (nbits w : Nat) : State := s.setRequests (tableRequest nbits w)

end Sys2Proof.Machine
end

