-- ==== Sys2Proof/Machine/Flags.lean ====
section
/-! DEFINITION. The block has no flags (rule R39): what a caller or a wrapper can know of its condition is computed
here from the buffer and from the returned values: the framing FSM view (rule R151), the buffer at rest (rule R34) and
the error kinds (rules R201 to R207). None of it is state (rule R36). -/

namespace Sys2Proof.Machine

/-- The framing FSM's states, rule R151. -/
inductive FsmState where
  | hunt
  | header (n : Nat)
  | body (n total : Nat)
  | check
  deriving DecidableEq, Repr

/-- Rule R34: the content the buffer can have between operations. -/
def atRest (b : List Byte) : Bool :=
  decide (b = []) ||
    (decide (memRead1 b 0 = sync) && (decide (b.length < hdrLen) || decide (b.length < declaredTotal b)))

/-- The FSM view of a buffer that is empty or starts with the sync byte, rule R151. -/
def fsmView (b : List Byte) : FsmState :=
  if b = [] then .hunt
  else if b.length < hdrLen then .header b.length
  else if b.length < declaredTotal b then .body b.length (declaredTotal b)
  else .check

/-- The source's error kinds, complete, rule R201. -/
inductive ErrorKind where
  /-- outside the block, which neither raises nor sees it (rule R210) -/
  | transportError
  | frameCrcMismatch
  | framePartial
  | frameSyncLost
  | invalidEpcLength
  | writeRejected
  deriving DecidableEq, Repr

/-- The error kind of one position of the buffer, in the order of rule R207, after the bytes before the first sync
byte are set aside; `none` for an empty buffer and for a valid frame. -/
def bufferCondition (b : List Byte) : Option ErrorKind :=
  match indexOf sync b with
  | none => if b = [] then none else some .frameSyncLost
  | some k =>
    let d := b.drop k
    if d.length < hdrLen then some .framePartial
    else if d.length < declaredTotal d then some .framePartial
    else
      match decodeSlice (d.take (declaredTotal d)) with
      | .ok _ => none
      | .crcMismatch => some .frameCrcMismatch
      | .malformed => none

/-- The error kind a returned value stands for, rules R202, R205, R206; a ParseFailure has none (rule R211). -/
def Result.errorKind : Result → Option ErrorKind
  | .invalidEpcLength => some .invalidEpcLength
  | .decode .crcMismatch => some .frameCrcMismatch
  | .write .tagOutOfRange => some .writeRejected
  | .write .invalidParameter => some .writeRejected
  | .write .passwordOrLockError => some .writeRejected
  | .write (.unknownError _) => some .writeRejected
  | _ => none

end Sys2Proof.Machine
end

