-- ==== Sys2Proof/Safety.lean ====
section
/-! DEFINITION. The terms claims are stated in: the invariant of a state, a run of operations (rule R245), which
operations touch the buffer (rules R6, R32), and the argument combinations the spec refuses (rule R212). -/

namespace Sys2Proof

open Sys2Proof.Machine

/-- The straps are legal (rule R33) and the buffer is at rest (rule R34). -/
def Machine.State.Inv (s : State) : Prop := s.straps.legal = true ∧ atRest s.buf = true

/-- Operations applied one after the other, each completely before the next (rule R61), stopping at a refusal. -/
def runOps : List Instr → State → Outcome
  | [], s => .next s
  | i :: rest, s =>
    match exec i s with
    | .next t => runOps rest t
    | .fault r => .fault r
    | .refused r => .refused r

/-- `n` CRC16.BIT operations, rule R103's "repeat 8 times" for n = 8. -/
def crcBits (n : Nat) : List Instr := List.replicate n .crcBit

/-- The events among the returned values, in order (rules R42, R245). -/
def eventsOf (l : List Result) : List Event :=
  l.flatMap fun r => match r with
    | .events e => e
    | _ => []

/-- The operations that change `buf` (rules R6, R32): RX.FEED, RX.BYTE, RESET, and the inbound FRAME rows, whose
meaning is a feed. -/
def Instr.touchesBuf : Instr → Bool
  | .reset => true
  | .rxFeed _ => true
  | .rxByte _ => true
  | .frameAny _ _ _ _ => true
  | .tagReport _ => true
  | .writeEpcRsp _ => true
  | .tagReportClassify _ _ => true
  | .startInventoryClassify _ _ => true
  | .writeEpcClassify _ _ => true
  | .stopInventoryClassify _ _ => true
  | _ => false

/-- The operations that write `crc` (rule R31, decision D27) and RESET (rule R231). -/
def Instr.touchesCrc : Instr → Bool
  | .reset => true
  | .crcClear => true
  | .crcBit => true
  | .crcByte _ => true
  | .crcCompute _ => true
  | _ => false

/-- The operations whose effect depends on what `crc` holds: the two register steps (rule R31, decision D27). -/
def Instr.readsCrc : Instr → Bool
  | .crcBit => true
  | .crcByte _ => true
  | _ => false

/-- A finite BUF_CAP leaves room for `n` more bytes (rule R33). -/
def Machine.State.roomFor (s : State) (n : Nat) : Prop :=
  ∀ cap, s.straps.bufCap = some cap → s.buf.length + n ≤ cap

/-- The characters `0123456789ABCDEF` of rule R177, in order of value. -/
def hexAlphabet : List Char := ['0', '1', '2', '3', '4', '5', '6', '7', '8', '9', 'A', 'B', 'C', 'D', 'E', 'F']

/-- The characters rule R184 calls hexadecimal digits: `0-9`, `a-f`, `A-F`. -/
abbrev isHexDigit (c : Char) : Prop := c ∈ hexAlphabet ++ ['a', 'b', 'c', 'd', 'e', 'f']

/-- The argument combinations the spec refuses (U3, U4, U6, U7, U8, U11 of 93_implementation_defined.md, rule R212),
and an inbound or outbound frame that does not exist because its payload is over 65535 bytes (rule R70). -/
def Instr.refusedBySpec (i : Instr) (s : State) : Prop :=
  match i with
  | .frameEncode _ _ p => 65535 < p.length
  | .rxFeed l => ¬ s.roomFor l.length
  | .rxByte _ => ¬ s.roomFor 1
  | .invStart ids _ => ∃ id ∈ ids, id < 1 ∨ 4 < id
  | .epcwBuild old new id _ =>
    (∃ c ∈ old ++ new, ¬ isHexDigit c) ∨ old.length % 2 = 1 ∨ id < 1 ∨ 4 < id ∨
      (new.length % 4 = 0 ∧
        (256 ^ s.straps.bitlenSize.bytes ≤ old.length / 2 * 8 ∨
          65535 < 22 + new.length / 2 + s.straps.bitlenSize.bytes + old.length / 2))
  | .unassigned => True
  | .startInventory p => 65535 < p.length
  | .writeEpcCmd p => 65535 < p.length
  | .stopInventory p => 65535 < p.length
  | .frameAny _ _ _ p => 65535 < p.length ∨ ¬ s.roomFor (9 + p.length)
  | .tagReport p => 65535 < p.length ∨ ¬ s.roomFor (9 + p.length)
  | .writeEpcRsp p => 65535 < p.length ∨ ¬ s.roomFor (9 + p.length)
  | .tagReportClassify _ p => 65535 < p.length ∨ ¬ s.roomFor (9 + p.length)
  | .startInventoryClassify _ p => 65535 < p.length ∨ ¬ s.roomFor (9 + p.length)
  | .writeEpcClassify _ p => 65535 < p.length ∨ ¬ s.roomFor (9 + p.length)
  | .stopInventoryClassify _ p => 65535 < p.length ∨ ¬ s.roomFor (9 + p.length)
  | _ => False

/-- A candidate frame (rule R16) written out from its fields: header, payload, and any value `k` in the CRC field. It
is a frame when `k` is the CRC of rule R73. -/
def candidate (w : Word16) (c m : Byte) (p : List Byte) (k : Word16) : List Byte :=
  sync :: (frameBody w c m p ++ bytes16 k)

/-- The loop rule R153 describes: FRAME.TRYDECODE on the buffer, again and again, dropping what it says to drop. -/
def tryLoop (drop : CrcFailDrop) : Nat → List Byte → List Event × List Byte
  | 0, b => ([], b)
  | n + 1, b =>
    match tryDecodeBuffer drop b with
    | .needMoreData => ([], b)
    | .decoded f k => let r := tryLoop drop n (b.drop k); (.validFrame f :: r.1, r.2)
    | .resync k =>
      let r := tryLoop drop n (b.drop k)
      if memRead1 b 0 = sync then (.corruptFrameDetected :: r.1, r.2) else r

/-- The XOR of two sequences taken byte by byte, rule R105 (c). -/
def xorBytes (a b : List Byte) : List Byte := List.zipWith (· ^^^ ·) a b

/-- Bit `j` of a byte sequence in the order the CRC consumes it: bit 7 of byte 0 is bit 0 (rule R54). -/
def wireBit (l : List Byte) (j : Nat) : Bool := (memRead1 l (j / 8)).getMsbD (j % 8)

/-- An error pattern whose set bits lie in 16 consecutive places, at least one of them set (rule R105 (e)). -/
def burst16 (e : List Byte) : Prop :=
  (∃ j, wireBit e j = true) ∧ ∃ j0, ∀ j, wireBit e j = true → j0 ≤ j ∧ j < j0 + 16

end Sys2Proof
end

