-- ==== Sys2Proof/Certificates/Slice0/Obligations.lean ====
section
/-! DEFINITION. The statements for the provers, from the numbered rules of spec/. `exec`'s answer is written with the
record update of the state, so each result statement is also the instruction's frame: every field it does not name is
unchanged. -/

open Sys2Proof Sys2Proof.Machine

/-! ## CRC16Engine, 40_crc16.md -/

/-- Rule R101: the register is 0x0000 afterwards, whatever it was. -/
def Obligations.CrcClearWritesZero : Prop :=
  ∀ s : State, exec .crcClear s = .next { s with crc := 0x0000#16 }

/-- Rule R102, in numbers: the old value's bit 15 is shifted out and decides the XOR with 0x1021. -/
def Obligations.CrcBitShiftsAndXors : Prop :=
  ∀ s : State, exec .crcBit s = .next { s with
    crc := if 32768 ≤ s.crc.toNat then BitVec.ofNat 16 (2 * s.crc.toNat % 65536) ^^^ 0x1021#16
      else BitVec.ofNat 16 (2 * s.crc.toNat) }

/-- Rule R103: XOR of the byte into bits 15 to 8, then exactly eight CRC16.BIT operations. -/
def Obligations.CrcByteIsXorThenEightBits : Prop :=
  ∀ (b : Byte) (s : State), ∃ t,
    runOps (crcBits 8) { s with crc := s.crc ^^^ BitVec.ofNat 16 (b.toNat * 256) } = .next t ∧
    exec (.crcByte b) s = .next t

/-- Rule R104: CLEAR, one BYTE for each byte in order, and the register is the result (it is left with it: decision
D27). -/
def Obligations.CrcComputeIsClearThenBytes : Prop :=
  ∀ (bytes : List Byte) (s : State), ∃ t,
    runOps (.crcClear :: bytes.map .crcByte) s = .next t ∧
    exec (.crcCompute bytes) s = .next { t with results := t.results ++ [.crc t.crc] }

/-- Rule R105 (a) and (b) (laws the spec derives from rules R101 to R104): the register after `a ++ b` is the register
after `a` carried through the bytes of `b`, and leading zero bytes are invisible. -/
def Obligations.CrcIncrementalAndLeadingZeros : Prop :=
  ∀ (a b : List Byte) (n : Nat) (s : State), ∃ ta tb tz tw u,
    exec (.crcCompute a) s = .next ta ∧ runOps (b.map .crcByte) ta = .next tb ∧
    exec (.crcCompute (a ++ b)) s = .next u ∧ u.crc = tb.crc ∧
    exec (.crcCompute (List.replicate n 0x00#8 ++ b)) s = .next tz ∧
    exec (.crcCompute b) s = .next tw ∧ tz = tw

/-- Rule R105 (c) and (d) (laws the spec derives from rules R101 to R104): linear over XOR for equal lengths, and a
sequence followed by its own CRC has CRC zero. -/
def Obligations.CrcLinearAndResidueZero : Prop :=
  (∀ (a b : List Byte), a.length = b.length → crcOf (xorBytes a b) = crcOf a ^^^ crcOf b) ∧
  ∀ (l : List Byte) (s : State), ∃ t u,
    exec (.crcCompute l) s = .next t ∧
    exec (.crcCompute (l ++ [BitVec.ofNat 8 (t.crc.toNat / 256), BitVec.ofNat 8 (t.crc.toNat % 256)])) s = .next u ∧
    u.crc = 0x0000#16

/-- A register read as a polynomial over GF(2), rule R108: bit `i` is the coefficient of x^i. -/
noncomputable def Sys2Proof.gfPoly (v : Word16) : Polynomial (ZMod 2) :=
  ∑ i ∈ Finset.range 16, if v.getLsbD i then Polynomial.X ^ i else 0

/-- A byte sequence read as a polynomial over GF(2), the first byte's bit 7 the highest coefficient (rule R108). -/
noncomputable def Sys2Proof.gfBytes (l : List Byte) : Polynomial (ZMod 2) :=
  l.foldl (fun q b => q * Polynomial.X ^ 8 + gfPoly (b.setWidth 16)) 0

/-- The polynomial 0x1021 stands for, x^16 + x^12 + x^5 + 1, rule R108. -/
noncomputable def Sys2Proof.gfGenerator : Polynomial (ZMod 2) :=
  Polynomial.X ^ 16 + Polynomial.X ^ 12 + Polynomial.X ^ 5 + 1

/-- Rule R108 (derived there from rules R102, R104): a BIT step multiplies the register by x modulo the polynomial,
and COMPUTE returns the remainder of the bytes times x^16. -/
def Obligations.CrcIsPolynomialRemainder : Prop :=
  (∀ s : State, ∃ t, exec .crcBit s = .next t ∧
    gfPoly t.crc = (Polynomial.X * gfPoly s.crc) %ₘ gfGenerator) ∧
  ∀ (bytes : List Byte) (s : State), ∃ t, exec (.crcCompute bytes) s = .next t ∧
    gfPoly t.crc = (gfBytes bytes * Polynomial.X ^ 16) %ₘ gfGenerator

/-- Rule R105 (e) (marked there as general knowledge; it is a consequence of rules R101 to R104), at the frame: no
error burst of up to 16 bits turns an encoded frame into a slice that decodes. -/
def Obligations.BurstErrorsNeverDecode : Prop :=
  ∀ (c m : Byte) (p e : List Byte) (s : State), p.length ≤ 65535 → e.length = 9 + p.length → burst16 e →
    ∃ f o, exec (.frameEncode c m p) s = .next (s.emit (.frame f)) ∧
      exec (.frameDecode (xorBytes f e)) s = .next (s.emit (.decode o)) ∧ ∀ fr, o ≠ .ok fr

/-- Rule R31 and decision D27: only CRC16.BIT and CRC16.BYTE depend on what `crc` holds; every other operation, run
from another value, does the same and keeps that value unless it writes the register. -/
def Obligations.CrcRegisterIsScratch : Prop :=
  ∀ (i : Instr) (s : State) (v : Word16), i.readsCrc = false →
    (∀ t, exec i s = .next t →
      exec i { s with crc := v } = .next { t with crc := if i.touchesCrc then t.crc else v }) ∧
    ∀ r, exec i s = .refused r → exec i { s with crc := v } = .refused r

/-! ## RESET, 70_reset_and_hazards.md -/

/-- Rule R231 (decision D9, the spec's own choice): `buf` and `crc` are cleared, nothing is emitted, the straps keep
their values, and the view is HUNT. -/
def Obligations.ResetClearsBufferAndCrc : Prop :=
  ∀ s : State, exec .reset s = .next { s with buf := [], crc := 0x0000#16 } ∧ fsmView [] = .hunt

/-- The table of rule R46 (decision D9, the spec's own choice): the reset values, that RESET restores them from any
state, emits no event and leaves the straps unchanged. The straps' own values in `State.reset` are the model's (log
entry 2) and no part of this statement. -/
def Obligations.ResetStateHoldsResetValues : Prop :=
  State.reset.buf = [] ∧ State.reset.crc = 0x0000#16 ∧ fsmView State.reset.buf = .hunt ∧
  ∀ s : State, ∃ t, exec .reset s = .next t ∧ t.buf = State.reset.buf ∧ t.crc = State.reset.crc ∧
    t.straps = s.straps ∧ t.results = s.results

/-! ## FrameCodec, 41_frame_codec.md -/

/-- Rules R71 and R73: the frame FRAME.ENCODE returns, byte by byte, its CRC the one CRC16.COMPUTE gives over the bytes
between the sync byte and the CRC. A longer payload has no frame: see NoPayloadIsCutShort. -/
def Obligations.EncodeLaysOutTheFrame : Prop :=
  ∀ (c m : Byte) (p : List Byte) (s : State), p.length ≤ 65535 →
    let body := [0x00#8, 0x01#8, c, m, BitVec.ofNat 8 (p.length / 256), BitVec.ofNat 8 (p.length % 256)] ++ p
    ∃ u, exec (.crcCompute body) s = .next u ∧
      exec (.frameEncode c m p) s = .next { s with results := s.results ++ [.frame ([0x5A#8] ++ body ++
        [BitVec.ofNat 8 (u.crc.toNat / 256), BitVec.ofNat 8 (u.crc.toNat % 256)])] }

/-- Decisions D10 (rule R122) and log entry 6: no payload over 65535 bytes is truncated, wrapped or split: whatever
FRAME.ENCODE returns or an outbound FRAME row sends is a whole frame of the payload it was given. -/
def Obligations.NoPayloadIsCutShort : Prop :=
  ∀ (c m : Byte) (p f : List Byte) (layout : Layout) (s : State),
    (exec (.frameEncode c m p) s = .next (s.emit (.frame f)) → f.length = 9 + p.length ∧ (f.drop 7).take p.length = p) ∧
    (∀ i ∈ [Instr.startInventory p, .writeEpcCmd p, .stopInventory p],
      exec i s = .next (s.emit (.sent f layout)) → f.length = 9 + p.length ∧ (f.drop 7).take p.length = p) ∧
    (65535 < p.length → ∀ i ∈ [Instr.frameEncode c m p, .startInventory p, .writeEpcCmd p, .stopInventory p],
      exec i s = .refused .payloadTooLong)

/-- Rule R123 (derived there from rule R121): the properties of the encoded frame; injectivity is its last clause. -/
def Obligations.EncodedFrameProperties : Prop :=
  (∀ (c m : Byte) (p : List Byte) (s : State), p.length ≤ 65535 →
    ∃ f, exec (.frameEncode c m p) s = .next (s.emit (.frame f)) ∧
      f.length = 9 + p.length ∧ f[0]? = some 0x5A#8 ∧ f[1]? = some 0x00#8 ∧ f[2]? = some 0x01#8 ∧
      f[3]? = some c ∧ f[4]? = some m ∧
      (∃ hi lo, f[5]? = some hi ∧ f[6]? = some lo ∧ hi.toNat * 256 + lo.toNat = p.length) ∧
      (f.drop 7).take p.length = p ∧ crcOf (f.drop 1) = 0x0000#16) ∧
  ∀ (c m c' m' : Byte) (p p' f : List Byte) (s : State), p.length ≤ 65535 → p'.length ≤ 65535 →
    exec (.frameEncode c m p) s = .next (s.emit (.frame f)) →
    exec (.frameEncode c' m' p') s = .next (s.emit (.frame f)) → c = c' ∧ m = m' ∧ p = p'

/-- Rule R124: the outcome of FRAME.DECODE, written with plain reads of the slice. -/
def Obligations.DecodeOutcomeOfEverySlice : Prop :=
  ∀ (l : List Byte) (s : State),
    let t := l.length
    let n := (l.getD 5 0).toNat * 256 + (l.getD 6 0).toNat
    exec (.frameDecode l) s = .next { s with results := s.results ++ [.decode (
      if t < 9 ∨ l.getD 0 0 ≠ 0x5A#8 ∨ t ≠ 9 + n then .malformed
      else if (crcOf ((l.take (t - 2)).drop 1)).toNat = (l.getD (t - 2) 0).toNat * 256 + (l.getD (t - 1) 0).toNat then
        .ok ⟨l.getD 3 0, l.getD 4 0, (l.take (t - 2)).drop 7⟩
      else .crcMismatch)] }

/-- Rule R125 (decision D29, the spec's own choice): a slice a scan cuts at a sync byte to its declared length is
never malformed, and a slice is malformed exactly when it is too short, does not start with the sync byte, or has
another length than it declares. -/
def Obligations.MalformedOnlyOutsideTheScan : Prop :=
  (∀ b : List Byte, b.head? = some sync → declaredTotal b ≤ b.length →
    decodeSlice (b.take (declaredTotal b)) ≠ .malformed) ∧
  ∀ (l : List Byte) (s : State), exec (.frameDecode l) s = .next (s.emit (.decode .malformed)) ↔
    (l.length < 9 ∨ l.head? ≠ some sync ∨ l.length ≠ declaredTotal l)

/-- Rules R126 and R131: FRAME.TRYDECODE in the order of its tests (the sync byte of least offset, decision D6; the
three short cases, decision D11; the drop after a CRC mismatch, decision D4: the spec's own choices). -/
def Obligations.TryDecodeInTestOrder : Prop :=
  ∀ s : State,
    (exec (.frameTryDecode []) s = .next (s.emit (.tryDecode .needMoreData))) ∧
    (∀ b, b ≠ [] → 0x5A#8 ∉ b → exec (.frameTryDecode b) s = .next (s.emit (.tryDecode (.resync b.length)))) ∧
    (∀ g t, g ≠ [] → 0x5A#8 ∉ g →
      exec (.frameTryDecode (g ++ 0x5A#8 :: t)) s = .next (s.emit (.tryDecode (.resync g.length)))) ∧
    (∀ t, t.length < 6 → exec (.frameTryDecode (0x5A#8 :: t)) s = .next (s.emit (.tryDecode .needMoreData))) ∧
    (∀ w0 w1 c m hi lo r, r.length < 2 + (hi.toNat * 256 + lo.toNat) →
      exec (.frameTryDecode (0x5A#8 :: w0 :: w1 :: c :: m :: hi :: lo :: r)) s =
        .next (s.emit (.tryDecode .needMoreData))) ∧
    ∀ w c m p k r, p.length ≤ 65535 →
      exec (.frameTryDecode (candidate w c m p k ++ r)) s = .next (s.emit (.tryDecode (
        if crcOf (frameBody w c m p) = k then .decoded ⟨c, m, p⟩ (9 + p.length)
        else if s.straps.crcFailDrop = .candidate then .resync (9 + p.length) else .resync 1)))

/-- Rule R130 (its second half derived there from rules R121, R124): the round trip, through FRAME.DECODE and, with
any bytes after the frame, through FRAME.TRYDECODE; the other direction where the slice carries protocol control word
0x0001; and that another word does not re-encode. -/
def Obligations.EncodeDecodeRoundTrip : Prop :=
  (∀ (c m : Byte) (p t : List Byte) (s : State), p.length ≤ 65535 →
    ∃ f, exec (.frameEncode c m p) s = .next (s.emit (.frame f)) ∧
      exec (.frameDecode f) s = .next (s.emit (.decode (.ok ⟨c, m, p⟩))) ∧
      exec (.frameTryDecode (f ++ t)) s = .next (s.emit (.tryDecode (.decoded ⟨c, m, p⟩ (9 + p.length))))) ∧
  ∀ (l : List Byte) (fr : Frame) (s : State), exec (.frameDecode l) s = .next (s.emit (.decode (.ok fr))) →
    ∃ f, exec (.frameEncode fr.category fr.messageId fr.payload) s = .next (s.emit (.frame f)) ∧
      (f = l ↔ l[1]? = some 0x00#8 ∧ l[2]? = some 0x01#8)

/-! ## StreamReassembler, 42_stream_reassembler.md -/

/-- Rule R141: RX.FEED by what the buffer holds after step 1. Beyond a finite BUF_CAP the feed is refused (rule R33).
Otherwise, in the order of the steps: no sync byte (step 2); a sync byte and a wait (steps 3, 4, 5); a whole candidate
(step 6, with the drop of decision D4), after which the feed does what it would do on the rest of the buffer (step 7).
-/
def Obligations.FeedFollowsTheSteps : Prop :=
  ∀ (new : List Byte) (s : State),
    (¬ s.roomFor new.length → exec (.rxFeed new) s = .refused .bufferCapacityExceeded) ∧
    (s.roomFor new.length →
      (0x5A#8 ∉ s.buf ++ new →
        exec (.rxFeed new) s = .next { s with buf := [], results := s.results ++ [.events []] }) ∧
      (∀ g t, s.buf ++ new = g ++ 0x5A#8 :: t → 0x5A#8 ∉ g →
        (t.length < 6 ∨ (0x5A#8 :: t).length < declaredTotal (0x5A#8 :: t)) →
        exec (.rxFeed new) s = .next { s with buf := 0x5A#8 :: t, results := s.results ++ [.events []] }) ∧
      (∀ g w c m p k r, s.buf ++ new = g ++ (candidate w c m p k ++ r) → 0x5A#8 ∉ g → p.length ≤ 65535 →
        ∃ evs b,
          exec (.rxFeed (if crcOf (frameBody w c m p) = k ∨ s.straps.crcFailDrop = .candidate then r
            else (candidate w c m p k ++ r).drop 1)) { s with buf := [] } =
            .next { s with buf := b, results := s.results ++ [.events evs] } ∧
          exec (.rxFeed new) s = .next { s with
            buf := b
            results := s.results ++ [.events ((if crcOf (frameBody w c m p) = k then .validFrame ⟨c, m, p⟩
              else .corruptFrameDetected) :: evs)] }))

/-- Rule R150 (its bound derived there from rule R151): RX.BYTE is RX.FEED of one byte; with CANDIDATE, from a buffer
at rest, it emits at most one event; with ONE_BYTE it may emit several. -/
def Obligations.RxByteIsFeedOfOneByte : Prop :=
  (∀ (b : Byte) (s : State),
    exec (.rxByte b) s = exec (.rxFeed [b]) s ∧
    (s.roomFor 1 → ∃ buf evs,
      exec (.rxByte b) s = .next { s with buf := buf, results := s.results ++ [.events evs] } ∧
      (s.straps.crcFailDrop = .candidate → atRest s.buf = true → evs.length ≤ 1))) ∧
  ∃ (b : Byte) (s : State) (buf : List Byte) (evs : List Event),
    s.straps.crcFailDrop = .oneByte ∧ atRest s.buf = true ∧ 1 < evs.length ∧
    exec (.rxByte b) s = .next { s with buf := buf, results := s.results ++ [.events evs] }

/-- Rule R34 (derived there from rule R141): after RESET and after any feed the buffer is at rest, at most 65543 bytes
long. -/
def Obligations.BufferIsAtRestAfterFeed : Prop :=
  (∀ s : State, ∃ t, exec .reset s = .next t ∧ t.buf = []) ∧
  ∀ (new : List Byte) (s : State), s.roomFor new.length → ∃ t, exec (.rxFeed new) s = .next t ∧
    (t.buf = [] ∨ (t.buf[0]? = some 0x5A#8 ∧
      (t.buf.length < 7 ∨
        ∃ hi lo, t.buf[5]? = some hi ∧ t.buf[6]? = some lo ∧
          t.buf.length < 9 + (hi.toNat * 256 + lo.toNat)))) ∧
    t.buf.length ≤ 65543

/-- Rule R147 (its second bound derived there from rule R141): a pass that resumes has removed at least one byte, so a
feed always ends within as many passes as there are bytes, and it emits at most as many events as there are sync bytes
in the buffer after step 1. -/
def Obligations.FeedEndsAndEventsAreBounded : Prop :=
  (∀ (d : CrcFailDrop) (b b' : List Byte) (e : Event), scanPass d b = .resume e b' → b'.length < b.length) ∧
  (∀ (d : CrcFailDrop) (b : List Byte) (n : Nat), b.length < n → scanFuel d n b = scan d b) ∧
  ∀ (new : List Byte) (s : State), s.roomFor new.length → ∃ b evs,
    exec (.rxFeed new) s = .next { s with buf := b, results := s.results ++ [.events evs] } ∧
    evs.length ≤ (s.buf ++ new).count 0x5A#8

/-- Rule R149 (derived there from rules R141, R34): feeding nothing from a buffer at rest returns no event and changes
nothing. -/
def Obligations.FeedingNothingChangesNothing : Prop :=
  ∀ s : State, s.Inv → exec (.rxFeed []) s = .next { s with results := s.results ++ [.events []] }

/-- Rule R151 (derived there from rule R141, the state names decision D15): the FSM view and its transitions under
RX.BYTE; with ONE_BYTE a failing candidate's stored bytes are rescanned without their sync byte. -/
def Obligations.FsmTransitions : Prop :=
  ∀ (b : Byte) (s : State), s.roomFor 1 → atRest s.buf = true →
    ∃ buf evs, exec (.rxByte b) s = .next { s with buf := buf, results := s.results ++ [.events evs] } ∧
      (fsmView s.buf = .hunt → b ≠ 0x5A#8 → fsmView buf = .hunt ∧ buf = [] ∧ evs = []) ∧
      (fsmView s.buf = .hunt → b = 0x5A#8 → fsmView buf = .header 1 ∧ buf = [b] ∧ evs = []) ∧
      (∀ n, fsmView s.buf = .header n → 1 ≤ n ∧ n ≤ 6 ∧ buf = s.buf ++ [b] ∧ evs = [] ∧
        (n < 6 → fsmView buf = .header (n + 1)) ∧
        (n = 6 → ∃ total, 9 ≤ total ∧ fsmView buf = .body 7 total)) ∧
      (∀ n total, fsmView s.buf = .body n total → 7 ≤ n ∧ n < total ∧
        (n + 1 < total → fsmView buf = .body (n + 1) total ∧ buf = s.buf ++ [b] ∧ evs = []) ∧
        (n + 1 = total → fsmView (s.buf ++ [b]) = .check ∧
          (∀ fr, decodeSlice (s.buf ++ [b]) = .ok fr →
            fsmView buf = .hunt ∧ buf = [] ∧ evs = [.validFrame fr]) ∧
          ((∀ fr, decodeSlice (s.buf ++ [b]) ≠ .ok fr) →
            (s.straps.crcFailDrop = .candidate →
              fsmView buf = .hunt ∧ buf = [] ∧ evs = [.corruptFrameDetected]) ∧
            (s.straps.crcFailDrop = .oneByte →
              buf = (scan .oneByte ((s.buf ++ [b]).drop 1)).2 ∧
              evs = .corruptFrameDetected :: (scan .oneByte ((s.buf ++ [b]).drop 1)).1)))) ∧
      fsmView s.buf ≠ .check

/-- Rule R152 (derived there from rule R141): any way of cutting a stream into feeds gives the same events in the same
order and the same final buffer as one feed of the whole, for both values of CRC_FAIL_DROP. -/
def Obligations.SplitInvariance : Prop :=
  ∀ (pieces : List (List Byte)) (s t : State), exec (.rxFeed pieces.flatten) s = .next t → atRest s.buf = true →
    ∃ u, runOps (pieces.map .rxFeed) s = .next u ∧ u.buf = t.buf ∧
      ∃ l, u.results = s.results ++ l ∧ eventsOf l = eventsOf (t.results.drop s.results.length) ∧
        u.crc = t.crc ∧ u.straps = t.straps ∧ u.requests = t.requests

/-- Rule R153 (derived there from rules R141, R126): RX.FEED is FRAME.TRYDECODE in a loop. -/
def Obligations.FeedIsTryDecodeLoop : Prop :=
  (∀ (b : List Byte) (s : State),
    exec (.frameTryDecode b) s = .next (s.emit (.tryDecode (tryDecodeBuffer s.straps.crcFailDrop b)))) ∧
  ∀ (new : List Byte) (s : State), s.roomFor new.length → ∀ n, (s.buf ++ new).length < n →
    exec (.rxFeed new) s = .next { s with
      buf := (tryLoop s.straps.crcFailDrop n (s.buf ++ new)).2
      results := s.results ++ [.events (tryLoop s.straps.crcFailDrop n (s.buf ++ new)).1] }

/-- Rule R154: (a) garbage without a sync byte before an encoded frame; (b) a frame with an altered CRC field before an
encoded frame, under CANDIDATE with no assumption and under ONE_BYTE when the damaged frame holds no further sync
byte. -/
def Obligations.GarbageAndDamageBeforeFrame : Prop :=
  ∀ (s : State) (c m c' m' : Byte) (g p p' : List Byte) (k : Word16), s.buf = [] → s.straps.bufCap = none →
    p.length ≤ 65535 → p'.length ≤ 65535 →
    ∃ f f', exec (.frameEncode c m p) s = .next (s.emit (.frame f)) ∧
      exec (.frameEncode c' m' p') s = .next (s.emit (.frame f')) ∧
      (0x5A#8 ∉ g → exec (.rxFeed (g ++ f)) s =
        .next { s with results := s.results ++ [.events [.validFrame ⟨c, m, p⟩]] }) ∧
      (candidate 0x0001#16 c' m' p' k ≠ f' →
        (s.straps.crcFailDrop = .candidate ∨ 0x5A#8 ∉ (candidate 0x0001#16 c' m' p' k).drop 1) →
        exec (.rxFeed (candidate 0x0001#16 c' m' p' k ++ f)) s =
          .next { s with results := s.results ++ [.events [.corruptFrameDetected, .validFrame ⟨c, m, p⟩]] })

/-- Rules R75 (decision D5), R76, R80 (decision D24): a frame with any protocol control word, category and message id
is delivered; from an empty buffer the feed emits exactly it and leaves the buffer empty. -/
def Obligations.EveryTripleIsDelivered : Prop :=
  ∀ (w : Word16) (c m : Byte) (p : List Byte) (s : State), p.length ≤ 65535 → s.buf = [] →
    s.roomFor (9 + p.length) →
    exec (.frameAny w c m p) s = .next { s with results := s.results ++ [.events [.validFrame ⟨c, m, p⟩]] }

/-- Rule R207: the error kind of a buffer, in the order of the tests; bytes before the first sync byte are no kind of
their own. -/
def Obligations.ErrorKindInTestOrder : Prop :=
  bufferCondition [] = none ∧
  (∀ b, b ≠ [] → 0x5A#8 ∉ b → bufferCondition b = some .frameSyncLost) ∧
  (∀ g t, 0x5A#8 ∉ g → (t.length < 6 ∨ (0x5A#8 :: t).length < declaredTotal (0x5A#8 :: t)) →
    bufferCondition (g ++ 0x5A#8 :: t) = some .framePartial) ∧
  ∀ g w c m p k r, 0x5A#8 ∉ g → p.length ≤ 65535 →
    bufferCondition (g ++ (candidate w c m p k ++ r)) =
      if crcOf (frameBody w c m p) = k then none else some .frameCrcMismatch

/-- Rules R202 to R206: what each error kind does to a feed, and which returned values are of a kind; after the feed the
buffer is empty or a wait. -/
def Obligations.ErrorKindsHaveTheirEffects : Prop :=
  (∀ (new : List Byte) (s : State), s.roomFor new.length →
    let b := s.buf ++ new
    ∃ buf evs, exec (.rxFeed new) s = .next { s with buf := buf, results := s.results ++ [.events evs] } ∧
      (bufferCondition b = some .frameSyncLost → buf = [] ∧ evs = []) ∧
      (bufferCondition b = some .framePartial →
        evs = [] ∧ buf.head? = some 0x5A#8 ∧ ∃ g, b = g ++ buf ∧ 0x5A#8 ∉ g) ∧
      (bufferCondition b = some .frameCrcMismatch → evs.head? = some .corruptFrameDetected) ∧
      (bufferCondition b = none → b ≠ [] → ∃ fr, evs.head? = some (.validFrame fr)) ∧
      (bufferCondition buf = if buf = [] then none else some .framePartial)) ∧
  ∀ (code : Byte) (more : List Byte) (s : State), ∃ o,
    exec (.wresParse (code :: more)) s = .next (s.emit (.write o)) ∧
    (Result.write o).errorKind = (if code = 0x00#8 then none else some .writeRejected) ∧
    Result.invalidEpcLength.errorKind = some .invalidEpcLength ∧ (Result.write .parseFailure).errorKind = none

/-! ## Payload layer, 43_payload_layer.md -/

/-- Rule R171: the frame of INV.START is FRAME.ENCODE's of the 5-byte payload whose mask has bit `id - 1` set for
exactly the ids listed. -/
def Obligations.InvStartBuildsTheMask : Prop :=
  ∀ (ids : List Nat) (continuous : Bool) (s : State), (∀ id ∈ ids, 1 ≤ id ∧ id ≤ 4) →
    ∃ mask f, (∀ j, mask.getLsbD j = decide (j + 1 ∈ ids)) ∧ f.length = 14 ∧
      exec (.frameEncode 0x02#8 0x10#8 [0x00#8, 0x00#8, 0x00#8, mask, if continuous then 0x01#8 else 0x00#8]) s =
        .next (s.emit (.frame f)) ∧
      exec (.invStart ids continuous) s = .next { s with results := s.results ++ [.frame f] }

/-- Decision D22 (rule R172), the spec's own choice: the empty set builds the mask 0x00, and a list with an id outside 1
to 4 is refused whatever else it holds. -/
def Obligations.InvStartAtTheEdges : Prop :=
  (∀ (continuous : Bool) (s : State), ∃ f,
    exec (.frameEncode 0x02#8 0x10#8 [0x00#8, 0x00#8, 0x00#8, 0x00#8, if continuous then 0x01#8 else 0x00#8]) s =
      .next (s.emit (.frame f)) ∧
    exec (.invStart [] continuous) s = .next { s with results := s.results ++ [.frame f] }) ∧
  ∀ (ids : List Nat) (continuous : Bool) (s : State), (∃ id ∈ ids, id < 1 ∨ 4 < id) →
    exec (.invStart ids continuous) s = .refused .antennaIdOutOfRange

/-- Rule R173: the frame of INV.STOP is FRAME.ENCODE's of the empty payload, a constant; its nine bytes stand in the
rule's Example, which the spec derives from rule R121. -/
def Obligations.InvStopFrame : Prop :=
  ∀ s : State, exec .invStop s = exec (.frameEncode 0x02#8 0xFF#8 []) s ∧
    exec .invStop s = .next { s with
      results := s.results ++ [.frame [0x5A#8, 0x00#8, 0x01#8, 0x02#8, 0xFF#8, 0x00#8, 0x00#8, 0x88#8, 0x5A#8]] }

/-- Rules R175 and R177 (the cases of rule R176 are decision D19, the spec's own choice): TAG.PARSE of a payload that
holds the EPC, the reserved bytes and the antenna id, whatever follows, and of one that does not. -/
def Obligations.TagParseOutcome : Prop :=
  ∀ s : State,
    (∀ (hi lo r0 r1 a : Byte) (epc more : List Byte), epc.length = hi.toNat * 256 + lo.toNat →
      exec (.tagParse (hi :: lo :: (epc ++ r0 :: r1 :: a :: more))) s = .next { s with
        results := s.results ++ [.tag (.report
          (epc.flatMap fun b => [hexAlphabet.getD (b.toNat / 16) '?', hexAlphabet.getD (b.toNat % 16) '?']) a)] }) ∧
    ∀ p : List Byte, (p.length < 2 ∨ p.length < 5 + ((p.getD 0 0).toNat * 256 + (p.getD 1 0).toNat)) →
      exec (.tagParse p) s = .next { s with results := s.results ++ [.tag .parseFailure] }

/-- Rules R179 to R183 with the layout of rule R87: on admissible arguments EPCW.BUILD returns FRAME.ENCODE's frame of
the payload laid out byte by byte. The byte orders and sizes rule R87 marks as the spec's reading are decision D20, the
spec's own choice. -/
def Obligations.EpcwBuildLaysOutThePayload : Prop :=
  ∀ (old new : List Char) (id : Nat) (pw : Word32) (s : State),
    let e := new.length / 2
    let o := old.length / 2
    let b := s.straps.bitlenSize.bytes
    (∀ ch ∈ old ++ new, isHexDigit ch) → old.length % 2 = 0 → 1 ≤ id → id ≤ 4 → new.length % 4 = 0 →
    o * 8 < 256 ^ b → 22 + e + b + o ≤ 65535 →
    ∃ payload f,
      payload = [0x00#8, 0x00#8, 0x00#8, BitVec.ofNat 8 (2 ^ (id - 1)), 0x01#8, 0x00#8, 0x01#8,
          BitVec.ofNat 8 ((2 + e) / 256), BitVec.ofNat 8 ((2 + e) % 256),
          BitVec.ofNat 8 (e / 2 * 2048 % 65536 / 256), BitVec.ofNat 8 (e / 2 * 2048 % 256)]
        ++ bytesOfHex new
        ++ [0x01#8, BitVec.ofNat 8 ((3 + b + o) / 256), BitVec.ofNat 8 ((3 + b + o) % 256), 0x01#8, 0x00#8, 0x20#8]
        ++ (if s.straps.bitlenSize = .one then [BitVec.ofNat 8 (o * 8)]
            else [BitVec.ofNat 8 (o * 8 / 256), BitVec.ofNat 8 (o * 8 % 256)])
        ++ bytesOfHex old
        ++ [0x02#8, BitVec.ofNat 8 (pw.toNat / 16777216), BitVec.ofNat 8 (pw.toNat / 65536 % 256),
          BitVec.ofNat 8 (pw.toNat / 256 % 256), BitVec.ofNat 8 (pw.toNat % 256)] ∧
      payload.length = 22 + e + b + o ∧
      exec (.frameEncode 0x02#8 0x11#8 payload) s = .next (s.emit (.frame f)) ∧
      exec (.epcwBuild old new id pw) s = .next { s with results := s.results ++ [.frame f] }

/-- Rule R205 (with rule R180): hexadecimal digits of a length not divisible by 4, the other arguments admissible,
return InvalidEpcLength and nothing else. -/
def Obligations.EpcwBuildInvalidEpcLength : Prop :=
  ∀ (old new : List Char) (id : Nat) (pw : Word32) (s : State),
    (∀ ch ∈ old ++ new, isHexDigit ch) → old.length % 2 = 0 → 1 ≤ id → id ≤ 4 → new.length % 4 ≠ 0 →
    exec (.epcwBuild old new id pw) s = .next { s with results := s.results ++ [.invalidEpcLength] }

/-- Rule R184 (decision D21, the spec's own choice): the three refusals, which come before the InvalidEpcLength test
(rule R207). -/
def Obligations.EpcwBuildRefusals : Prop :=
  ∀ (old new : List Char) (id : Nat) (pw : Word32) (s : State),
    ((∃ ch ∈ old ++ new, ¬ isHexDigit ch) → exec (.epcwBuild old new id pw) s = .refused .notHexDigits) ∧
    ((∀ ch ∈ old ++ new, isHexDigit ch) → old.length % 2 = 1 →
      exec (.epcwBuild old new id pw) s = .refused .oddOldEpcLength) ∧
    ((∀ ch ∈ old ++ new, isHexDigit ch) → old.length % 2 = 0 → (id < 1 ∨ 4 < id) →
      exec (.epcwBuild old new id pw) s = .refused .antennaIdOutOfRange)

/-- Rules R177, R184 (decision D21 for the letter case): hexadecimal strings are read and written the same way:
`bytesOfHex` gives back the bytes `hexUpper` wrote, and reads lower-case letters as their upper-case ones. -/
def Obligations.HexReadsBackWhatItWrites : Prop :=
  (∀ l : List Byte, bytesOfHex (hexUpper l) = l ∧ ∀ c ∈ hexUpper l, isHexDigit c) ∧
  ∀ l : List Char, (∀ c ∈ l, isHexDigit c) → bytesOfHex (l.map Char.toLower) = bytesOfHex l ∧
    (l.length % 2 = 0 → hexUpper (bytesOfHex l) = l.map Char.toUpper)

/-- Rules R186 and R88 (the empty payload of rule R187 is decision D23, the spec's own choice): the outcome of every
write-response payload. -/
def Obligations.WresParseOutcome : Prop :=
  ∀ s : State,
    exec (.wresParse []) s = .next { s with results := s.results ++ [.write .parseFailure] } ∧
    ∀ (code : Byte) (more : List Byte), exec (.wresParse (code :: more)) s = .next { s with
      results := s.results ++ [.write (
        match code.toNat with
        | 0x00 => .success
        | 0x03 => .invalidParameter
        | 0x08 => .passwordOrLockError
        | 0x10 => .tagOutOfRange
        | _ => .unknownError code)] }

/-! ## FRAME rows, rules R78, R79, R170 (log entry 6) -/

/-- The inbound FRAME rows are feeds of the frame's bytes (log entry 6): the buffer and the events are RX.FEED's, and
for a catalogue type the consumer's reading of each ValidFrame (rule R170) follows them. Neither direction nor catalogue
filters what is delivered (rule R80). -/
def Obligations.InboundFramesAreFeeds : Prop :=
  ∀ (w : Word16) (c m : Byte) (p : List Byte) (s : State), p.length ≤ 65535 → s.roomFor (9 + p.length) →
    ∃ buf evs, exec (.rxFeed (wireFrame w c m p)) s =
        .next { s with buf := buf, results := s.results ++ [.events evs] } ∧
      exec (.frameAny w c m p) s = .next { s with buf := buf, results := s.results ++ [.events evs] } ∧
      let seen := { s with
        buf := buf, results := s.results ++ [.events evs, .classified (evs.filterMap classifyEvent)] }
      (w = 0x0001#16 → c = 0x02#8 → m = 0x00#8 → exec (.tagReport p) s = .next seen) ∧
      (w = 0x0001#16 → c = 0x02#8 → m = 0x11#8 → exec (.writeEpcRsp p) s = .next seen) ∧
      (c = 0x02#8 → m = 0x00#8 → exec (.tagReportClassify w p) s = .next seen) ∧
      (c = 0x02#8 → m = 0x10#8 → exec (.startInventoryClassify w p) s = .next seen) ∧
      (c = 0x02#8 → m = 0x11#8 → exec (.writeEpcClassify w p) s = .next seen) ∧
      (c = 0x02#8 → m = 0xFF#8 → exec (.stopInventoryClassify w p) s = .next seen)

/-- Rule R170 (decision D24, the spec's own choice): which parser reads a ValidFrame, by (category, messageId) alone;
seen through the receiver-side rows on an empty buffer. -/
def Obligations.ConsumerClassifiesByPair : Prop :=
  (∀ (w : Word16) (p : List Byte) (s : State), p.length ≤ 65535 → s.buf = [] → s.roomFor (9 + p.length) →
    exec (.tagReportClassify w p) s = .next { s with results := s.results ++
      [.events [.validFrame ⟨0x02#8, 0x00#8, p⟩], .classified [.tagReport (parseTag p)]] } ∧
    exec (.writeEpcClassify w p) s = .next { s with results := s.results ++
      [.events [.validFrame ⟨0x02#8, 0x11#8, p⟩], .classified [.writeResponse (parseWrite p)]] } ∧
    exec (.startInventoryClassify w p) s = .next { s with results := s.results ++
      [.events [.validFrame ⟨0x02#8, 0x10#8, p⟩], .classified [.unrecognized ⟨0x02#8, 0x10#8, p⟩]] } ∧
    exec (.stopInventoryClassify w p) s = .next { s with results := s.results ++
      [.events [.validFrame ⟨0x02#8, 0xFF#8, p⟩], .classified [.unrecognized ⟨0x02#8, 0xFF#8, p⟩]] }) ∧
  (∀ fr : Frame, (fr.category ≠ 0x02#8 ∨ (fr.messageId ≠ 0x00#8 ∧ fr.messageId ≠ 0x11#8)) →
    classifyEvent (.validFrame fr) = some (.unrecognized fr)) ∧
  classifyEvent .corruptFrameDetected = none

/-- Rules R86, R175: a TAG_REPORT frame arriving on an empty buffer is delivered and read as its report. -/
def Obligations.TagReportArrivesAsReport : Prop :=
  ∀ (epc : List Byte) (r0 r1 a : Byte) (s : State), epc.length ≤ 65530 → s.buf = [] →
    s.roomFor (14 + epc.length) →
    let p := BitVec.ofNat 8 (epc.length / 256) :: BitVec.ofNat 8 (epc.length % 256) :: (epc ++ [r0, r1, a])
    exec (.tagReport p) s = .next { s with results := s.results ++
      [.events [.validFrame ⟨0x02#8, 0x00#8, p⟩], .classified [.tagReport (.report (hexUpper epc) a)]] }

/-- The outbound FRAME rows (log entry 6) put FRAME.ENCODE's frame of their payload on the TX stream and change no state
of the block (rules R43, R65); the layout named is rule R84's or R85's exactly when the payload has it, rule R84's with
any mask byte (the model's choice, log entry 6). -/
def Obligations.OutboundFramesAreSent : Prop :=
  ∀ (p : List Byte) (s : State), p.length ≤ 65535 →
    (∃ f l, exec (.frameEncode 0x02#8 0x10#8 p) s = .next (s.emit (.frame f)) ∧
      exec (.startInventory p) s = .next { s with results := s.results ++ [.sent f l] } ∧
      ∀ mask continuous, l = .startInventory mask continuous ↔
        p = [0x00#8, 0x00#8, 0x00#8, mask, if continuous then 0x01#8 else 0x00#8]) ∧
    (∃ f l, exec (.frameEncode 0x02#8 0x11#8 p) s = .next (s.emit (.frame f)) ∧
      exec (.writeEpcCmd p) s = .next { s with results := s.results ++ [.sent f l] } ∧
      ∀ fields, l = .writeEpc fields → p = writeEpcPayload s.straps.bitlenSize fields) ∧
    (∃ f l, exec (.frameEncode 0x02#8 0xFF#8 p) s = .next (s.emit (.frame f)) ∧
      exec (.stopInventory p) s = .next { s with results := s.results ++ [.sent f l] } ∧
      (l = .stopInventory ↔ p = []))

/-- The builders and the outbound FRAME rows agree (log entry 6): whatever frame a builder returns, the row of its type
sends that frame, and reads back from the payload the arguments the builder was given. -/
def Obligations.BuildersMatchOutboundRows : Prop :=
  (∀ (old new : List Char) (id : Nat) (pw : Word32) (f : List Byte) (s : State),
    exec (.epcwBuild old new id pw) s = .next (s.emit (.frame f)) →
    ∃ p, exec (.writeEpcCmd p) s = .next (s.emit (.sent f (.writeEpc
      { antenna := BitVec.ofNat 8 (2 ^ (id - 1)), newEpc := bytesOfHex new, oldEpc := bytesOfHex old,
        password := pw })))) ∧
  (∀ (ids : List Nat) (continuous : Bool) (f : List Byte) (s : State),
    exec (.invStart ids continuous) s = .next (s.emit (.frame f)) →
    ∃ p mask, exec (.startInventory p) s = .next (s.emit (.sent f (.startInventory mask continuous))) ∧
      ∀ id, 1 ≤ id → (mask.getLsbD (id - 1) = true ↔ id ∈ ids)) ∧
  ∀ s : State, ∃ f, exec .invStop s = .next (s.emit (.frame f)) ∧
    exec (.stopInventory []) s = .next (s.emit (.sent f .stopInventory))

/-! ## What operations leave alone -/

/-- Rules R6, R32, R50: only RESET, RX.FEED, RX.BYTE and the inbound FRAME rows (which are feeds) change the buffer:
after any other operation every offset reads as before. -/
def Obligations.OtherOperationsKeepTheBuffer : Prop :=
  ∀ (i : Instr) (s t : State), i.touchesBuf = false → exec i s = .next t →
    t.buf = s.buf ∧ ∀ k, bufByte t.buf k = bufByte s.buf k

/-- Rules R31, R120, R141 ("State written: `buf` only") and decision D27: only RESET and the CRC16 operations write
`crc`. -/
def Obligations.OtherOperationsKeepTheCrc : Prop :=
  ∀ (i : Instr) (s t : State), i.touchesCrc = false → exec i s = .next t → t.crc = s.crc

/-- Rule R40 (decision D13, the spec's own choice): the straps are changed by no operation; and no operation takes
another request from the caller's stream. -/
def Obligations.StrapsNeverChange : Prop :=
  (∀ (i : Instr) (s t : State), exec i s = .next t → t.straps = s.straps ∧ t.requests = s.requests) ∧
  ∀ s t : State, step s = .next t → t.straps = s.straps

/-- Rules R208, R42: what has been returned is not withdrawn: an operation only appends to the returned values, and at
most two. -/
def Obligations.ReturnedValuesStand : Prop :=
  (∀ (i : Instr) (s t : State), exec i s = .next t → ∃ l, t.results = s.results ++ l ∧ l.length ≤ 2) ∧
  ∀ s t : State, step s = .next t → ∃ l, t.results = s.results ++ l ∧ l.length ≤ 2

/-- Rules R65, R58: an operation that does not touch the buffer does not look at it either: from any other content it
does the same. -/
def Obligations.TransmitIgnoresReceive : Prop :=
  ∀ (i : Instr) (s : State) (b : List Byte), i.touchesBuf = false →
    (∀ t, exec i s = .next t → exec i { s with buf := b } = .next { t with buf := b }) ∧
    ∀ r, exec i s = .refused r → exec i { s with buf := b } = .refused r

/-- Rules R65, R245: what was returned earlier, and what will be requested later, has no influence on an operation. -/
def Obligations.PastAndFutureHaveNoInfluence : Prop :=
  ∀ (i : Instr) (s : State) (past : List Result) (future : List Byte),
    (∀ t l, exec i s = .next t → t.results = s.results ++ l →
      exec i { s with results := past, requests := future } =
        .next { t with results := past ++ l, requests := future }) ∧
    ∀ r, exec i s = .refused r → exec i { s with results := past, requests := future } = .refused r

/-- Rules R200, R212: an operation is refused exactly for the argument combinations the spec refuses, and in every other
case it returns. -/
def Obligations.RefusalsAreExactlyTheSpecs : Prop :=
  ∀ (i : Instr) (s : State),
    (i.refusedBySpec s → ∃ r, exec i s = .refused r) ∧ (¬ i.refusedBySpec s → ∃ t, exec i s = .next t)

/-- Rule R91 (decision D14, the spec's own choice): the select code 0xF is refused. -/
def Obligations.UnassignedCodeIsRefused : Prop :=
  ∀ s : State, exec .unassigned s = .refused .unassignedSelectCode

/-! ## The machine -/

/-- The straps are legal and the buffer is at rest (rules R33, R34) at reset. -/
def Obligations.ResetMeetsInvariant : Prop := State.reset.Inv

/-- From every state with legal straps and a buffer at rest, a step gives such a state (rules R33, R34, R40). -/
def Obligations.StepKeepsInvariant : Prop :=
  ∀ s t : State, s.Inv → step s = .next t → t.Inv

/-- A step takes the next request from the caller's stream and runs it (rules R14, R61, R245; the stream is the model's,
log entry 1). -/
def Obligations.StepRunsTheDecodedOperation : Prop :=
  ∀ (s : State) (i : Instr) (rest : List Byte), decode s.requests = .ok (i, rest) →
    step s = exec i { s with requests := rest }

/-- With nothing requested the block is idle and stays as it is (rules R216, R245); bytes that are no request are
refused, by name (log entry 4). -/
def Obligations.IdleWithoutRequest : Prop :=
  (∀ s : State, s.requests = [] → step s = .next s) ∧
  ∀ (s : State) (e : DecodeError), s.requests ≠ [] → decode s.requests = .error e →
    step s = .refused (.undecodable e)

/-- Every well-formed instruction is read back from its encoding, with every operand, and the bytes after it are left
(log entry 4). -/
def Obligations.DecodeOfEncode : Prop :=
  ∀ (i : Instr) (rest : List Byte), i.wellFormed = true → decode (encode i ++ rest) = .ok (i, rest)

/-- A request that does not start with a bare sync byte has one reading and is that reading's encoding, and what the
decoder gives is well-formed (log entry 4). -/
def Obligations.EncodeOfDecode : Prop :=
  ∀ (bytes : List Byte) (i : Instr) (rest : List Byte), decode bytes = .ok (i, rest) →
    i.wellFormed = true ∧ (bytes.head? ≠ some 0x5A#8 → bytes = encode i ++ rest)

/-- A frame header without a selector is read as its catalogue type when it carries the written protocol control word,
as that type's receiver-side row when it carries another, and as any frame otherwise. The header patterns and masks are
the spec's (rules R79, R92). The model's choices (log entry 5) are that a bare header is a request, that of several rows
that admit it the most specific is taken, and that (0x02, 0x11) is WRITE_EPC.CMD, whose pattern WRITE_EPC.RSP shares. -/
def Obligations.BareHeaderByPattern : Prop :=
  ∀ (w0 w1 c m hi lo : Byte) (p rest : List Byte), p.length = hi.toNat * 256 + lo.toNat →
    let w := BitVec.ofNat 16 (w0.toNat * 256 + w1.toNat)
    decode ([0x5A#8, w0, w1, c, m, hi, lo] ++ p ++ rest) = .ok (
      if c = 0x02#8 ∧ m = 0x00#8 then (if w = 0x0001#16 then .tagReport p else .tagReportClassify w p)
      else if c = 0x02#8 ∧ m = 0x10#8 then (if w = 0x0001#16 then .startInventory p else .startInventoryClassify w p)
      else if c = 0x02#8 ∧ m = 0x11#8 then (if w = 0x0001#16 then .writeEpcCmd p else .writeEpcClassify w p)
      else if c = 0x02#8 ∧ m = 0xFF#8 then (if w = 0x0001#16 then .stopInventory p else .stopInventoryClassify w p)
      else .frameAny w c m p, rest)

/-- A few words of the tables of rules R79 and R91 decode to what the model reads in them. The select codes and header
patterns are the spec's; that a select code stands in a byte of its own with zero bytes for its arguments is the model's
choice (log entry 4), and so are the byte order of a table word and the most specific row for a bare header, the
WRITE_EPC one with protocol control word 0x0000 among them (log entry 5). -/
def Obligations.TableWordsDecode : Prop :=
  decodeTableWord 8 0x0 = some .reset ∧
  decodeTableWord 8 0x2 = some .crcBit ∧
  decodeTableWord 8 0x8 = some (.rxFeed []) ∧
  decodeTableWord 8 0xB = some .invStop ∧
  decodeTableWord 8 0xF = some .unassigned ∧
  decodeTableWord 56 0x5A000102000000 = some (.tagReport []) ∧
  decodeTableWord 56 0x5A000102100000 = some (.startInventory []) ∧
  decodeTableWord 56 0x5A000002110000 = some (.writeEpcClassify 0x0000#16 []) ∧
  decodeTableWord 56 0x5A000000000000 = some (.frameAny 0x0000#16 0x00#8 0x00#8 [])
end

