-- ==== Sys2Proof/Laws/State.lean ====
section
/-! SUPPORT. One lemma per field per update of State, so that no proof unfolds a record update. -/

namespace Sys2Proof.Machine

variable (s : State)

@[simp] theorem State.setCrc_straps (v : Word16) : (s.setCrc v).straps = s.straps := rfl
@[simp] theorem State.setCrc_crc (v : Word16) : (s.setCrc v).crc = v := rfl
@[simp] theorem State.setCrc_buf (v : Word16) : (s.setCrc v).buf = s.buf := rfl
@[simp] theorem State.setCrc_requests (v : Word16) : (s.setCrc v).requests = s.requests := rfl
@[simp] theorem State.setCrc_results (v : Word16) : (s.setCrc v).results = s.results := rfl

@[simp] theorem State.setBuf_straps (b : List Byte) : (s.setBuf b).straps = s.straps := rfl
@[simp] theorem State.setBuf_crc (b : List Byte) : (s.setBuf b).crc = s.crc := rfl
@[simp] theorem State.setBuf_buf (b : List Byte) : (s.setBuf b).buf = b := rfl
@[simp] theorem State.setBuf_requests (b : List Byte) : (s.setBuf b).requests = s.requests := rfl
@[simp] theorem State.setBuf_results (b : List Byte) : (s.setBuf b).results = s.results := rfl

@[simp] theorem State.setRequests_straps (r : List Byte) : (s.setRequests r).straps = s.straps := rfl
@[simp] theorem State.setRequests_crc (r : List Byte) : (s.setRequests r).crc = s.crc := rfl
@[simp] theorem State.setRequests_buf (r : List Byte) : (s.setRequests r).buf = s.buf := rfl
@[simp] theorem State.setRequests_requests (r : List Byte) : (s.setRequests r).requests = r := rfl
@[simp] theorem State.setRequests_results (r : List Byte) : (s.setRequests r).results = s.results := rfl

@[simp] theorem State.emit_straps (r : Result) : (s.emit r).straps = s.straps := rfl
@[simp] theorem State.emit_crc (r : Result) : (s.emit r).crc = s.crc := rfl
@[simp] theorem State.emit_buf (r : Result) : (s.emit r).buf = s.buf := rfl
@[simp] theorem State.emit_requests (r : Result) : (s.emit r).requests = s.requests := rfl
@[simp] theorem State.emit_results (r : Result) : (s.emit r).results = s.results ++ [r] := rfl

@[simp] theorem State.setCrc_setCrc (v w : Word16) : (s.setCrc v).setCrc w = s.setCrc w := rfl
@[simp] theorem State.setBuf_setBuf (b c : List Byte) : (s.setBuf b).setBuf c = s.setBuf c := rfl

/-- A state is known by its fields. -/
theorem State.ext_fields {s t : State} (h1 : s.straps = t.straps) (h2 : s.crc = t.crc) (h3 : s.buf = t.buf)
    (h4 : s.requests = t.requests) (h5 : s.results = t.results) : s = t := by
  cases s; cases t; simp_all

end Sys2Proof.Machine
end

