-- ==== Sys2Proof/Laws/Operands.lean ====
section
/-! SUPPORT. The operand forms: big-endian fields read back what was written, the least offset of a byte, hexadecimal
strings, slices. -/

namespace Sys2Proof.Machine

/-- Rule R12: `be16(hi, lo)` as a number. -/
theorem be16_toNat (hi lo : Byte) : (be16 hi lo).toNat = hi.toNat * 256 + lo.toNat := by
  have hh := hi.isLt
  have hl := lo.isLt
  simp only [be16, BitVec.toNat_or, BitVec.toNat_shiftLeft, BitVec.toNat_setWidth]
  rw [Nat.mod_eq_of_lt (by omega : lo.toNat < 2 ^ 16), Nat.mod_eq_of_lt (by omega : hi.toNat < 2 ^ 16),
    Nat.mod_eq_of_lt (by rw [Nat.shiftLeft_eq]; omega), ← Nat.shiftLeft_add_eq_or_of_lt hl, Nat.shiftLeft_eq]

theorem hi8_toNat (v : Word16) : (hi8 v).toNat = v.toNat / 256 := by
  have := v.isLt
  simp only [hi8, BitVec.extractLsb'_toNat, Nat.shiftRight_eq_div_pow]
  omega

theorem lo8_toNat (v : Word16) : (lo8 v).toNat = v.toNat % 256 := by
  simp [lo8, BitVec.extractLsb'_toNat]

@[simp] theorem be16_hi8_lo8 (v : Word16) : be16 (hi8 v) (lo8 v) = v := by
  apply BitVec.eq_of_toNat_eq
  rw [be16_toNat, hi8_toNat, lo8_toNat]
  omega

@[simp] theorem hi8_be16 (hi lo : Byte) : hi8 (be16 hi lo) = hi := by
  apply BitVec.eq_of_toNat_eq
  have := lo.isLt
  rw [hi8_toNat, be16_toNat]
  omega

@[simp] theorem lo8_be16 (hi lo : Byte) : lo8 (be16 hi lo) = lo := by
  apply BitVec.eq_of_toNat_eq
  have := lo.isLt
  rw [lo8_toNat, be16_toNat]
  omega

/-- Rule R72: the length field of a length that fits gives the length back. -/
theorem lenField_toNat {n : Nat} (h : n ≤ 65535) :
    (be16 (hi8 (BitVec.ofNat 16 n)) (lo8 (BitVec.ofNat 16 n))).toNat = n := by
  rw [be16_hi8_lo8, BitVec.toNat_ofNat]
  omega

@[simp] theorem bytes16_length (v : Word16) : (bytes16 v).length = 2 := rfl
@[simp] theorem lenField_length (n : Nat) : (lenField n).length = 2 := rfl
@[simp] theorem be32_length (v : Word32) : (be32 v).length = 4 := rfl

/-- Rule R12: the four password bytes give the password back. -/
@[simp] theorem ofBe32_be32 (v : Word32) :
    ofBe32 (v.extractLsb' 24 8) (v.extractLsb' 16 8) (v.extractLsb' 8 8) (v.extractLsb' 0 8) = v := by
  ext i h
  simp only [ofBe32, BitVec.getElem_or, BitVec.getElem_shiftLeft, BitVec.getElem_setWidth,
    BitVec.getLsbD_extractLsb']
  have hi : i < 32 := h
  by_cases h1 : i < 8
  · simp [h1, show i < 16 by omega, show i < 24 by omega, BitVec.getLsbD_eq_getElem h]
  · by_cases h2 : i < 16
    · simp [h1, h2, show i < 24 by omega, show i - 8 < 8 by omega, show 8 + (i - 8) = i by omega,
        BitVec.getLsbD_eq_getElem h]
    · by_cases h3 : i < 24
      · simp [h1, h2, h3, show i - 16 < 8 by omega, show ¬ (i - 8 < 8) by omega, show 16 + (i - 16) = i by omega,
          BitVec.getLsbD_eq_getElem h]
      · simp [h1, h2, h3, show i - 24 < 8 by omega, show ¬ (i - 16 < 8) by omega, show ¬ (i - 8 < 8) by omega,
          show 24 + (i - 24) = i by omega, BitVec.getLsbD_eq_getElem h]

/-! The least offset of a byte, rule R11. -/

theorem indexOf_none {b : Byte} {l : List Byte} : indexOf b l = none ↔ b ∉ l := by
  induction l with
  | nil => simp [indexOf]
  | cons x t ih =>
    by_cases h : x = b
    · simp [indexOf, h]
    · simp [indexOf, h, ih, Ne.symm h]

theorem indexOf_append_of_notMem {b : Byte} {g l : List Byte} (h : b ∉ g) :
    indexOf b (g ++ l) = (indexOf b l).map (· + g.length) := by
  induction g with
  | nil => simp
  | cons x t ih =>
    simp only [List.mem_cons, not_or] at h
    simp only [List.cons_append, indexOf, Ne.symm h.1, if_false, ih h.2, Option.map_map, List.length_cons]
    congr 1

/-- The sequence splits at the least offset of `b`. -/
theorem indexOf_some {b : Byte} {l : List Byte} {k : Nat} :
    indexOf b l = some k ↔ ∃ g t, l = g ++ b :: t ∧ b ∉ g ∧ g.length = k := by
  constructor
  · intro h
    induction l generalizing k with
    | nil => simp [indexOf] at h
    | cons x t ih =>
      by_cases hx : x = b
      · simp only [indexOf, hx, if_true, Option.some.injEq] at h
        exact ⟨[], t, by simp [hx, h]⟩
      · simp only [indexOf, hx, if_false, Option.map_eq_some_iff] at h
        obtain ⟨j, hj, rfl⟩ := h
        obtain ⟨g, u, rfl, hg, rfl⟩ := ih hj
        exact ⟨x :: g, u, by simp [Ne.symm hx, hg]⟩
  · rintro ⟨g, t, rfl, hg, rfl⟩
    simp [indexOf_append_of_notMem hg, indexOf]

@[simp] theorem indexOf_cons_self (b : Byte) (l : List Byte) : indexOf b (b :: l) = some 0 := by simp [indexOf]

/-! Slices, rule R11. -/

theorem slice_length {m : List Byte} {i j : Nat} (h : j ≤ m.length) : (slice m i j).length = j - i := by
  simp [slice, Nat.min_eq_left h]

theorem slice_append_left {a b : List Byte} {i j : Nat} (h : j ≤ a.length) : slice (a ++ b) i j = slice a i j := by
  simp [slice, List.take_append_of_le_length h]

theorem memRead1_append {a b : List Byte} {k : Nat} (h : k < a.length) : memRead1 (a ++ b) k = memRead1 a k := by
  simp [memRead1, List.getElem?_append_left h]

theorem memRead2_append {a b : List Byte} {k : Nat} (h : k + 1 < a.length) :
    memRead2 (a ++ b) k = memRead2 a k := by
  rw [memRead2, memRead2, memRead1_append (by omega), memRead1_append h]

/-! Hexadecimal strings, rules R177, R184. -/

theorem hexValue_hexChar (n : BitVec 4) : hexValue (hexChar n) = some n := by
  revert n; decide

@[simp] theorem hexUpper_length (l : List Byte) : (hexUpper l).length = 2 * l.length := by
  induction l with
  | nil => rfl
  | cons b t ih => simp only [hexUpper, List.length_cons, ih]; omega

theorem nibbles_append (b : Byte) : b.extractLsb' 4 4 ++ b.extractLsb' 0 4 = b := by
  revert b; decide

theorem hexDigits_hexUpper (l : List Byte) : hexDigits (hexUpper l) = true := by
  induction l with
  | nil => rfl
  | cons b t ih =>
    rw [hexDigits] at ih
    simp [hexUpper, hexDigits, hexValue_hexChar, ih]

/-- Reading what `hexUpper` wrote gives the bytes back. -/
theorem bytesOfHex_hexUpper (l : List Byte) : bytesOfHex (hexUpper l) = l := by
  induction l with
  | nil => rfl
  | cons b t ih =>
    simp only [hexUpper, bytesOfHex, hexValue_hexChar, Option.getD_some, ih]
    exact congrArg (· :: t) (nibbles_append b)

/-- Rule R184: two digits per byte. -/
theorem bytesOfHex_length : ∀ l : List Char, (bytesOfHex l).length = l.length / 2
  | [] => rfl
  | [_] => by simp [bytesOfHex]
  | _ :: _ :: t => by simp only [bytesOfHex, List.length_cons, bytesOfHex_length t]; omega

/-! The antenna bit, rule R89 (c), and the bitLength field, rule R182. -/

theorem antennaIdOk_iff {id : Nat} : antennaIdOk id = true ↔ 1 ≤ id ∧ id ≤ 4 := by simp [antennaIdOk]

@[simp] theorem bitlenField_length (size : BitlenSize) (v : Nat) : (bitlenField size v).length = size.bytes := by
  cases size <;> rfl

end Sys2Proof.Machine
end

