-- ==== Sys2Proof/Laws/Crc.lean ====
section
/-! SUPPORT. The CRC generator: the step is linear over XOR, zero is a fixed point, the register after a sequence is
the register after its first part carried through the rest. -/

namespace Sys2Proof.Machine

@[simp] theorem crcStep_zero : crcStep 0#16 = 0#16 := by decide

theorem xor_xor_cancel (x y p : Word16) : (x ^^^ p) ^^^ (y ^^^ p) = x ^^^ y := by
  have h : (x ^^^ p) ^^^ (y ^^^ p) = (x ^^^ y) ^^^ (p ^^^ p) := by ac_rfl
  rw [h, BitVec.xor_self, BitVec.xor_zero]

theorem crcStep_xor (a b : Word16) : crcStep (a ^^^ b) = crcStep a ^^^ crcStep b := by
  simp only [crcStep, BitVec.getLsbD_xor, BitVec.shiftLeft_xor_distrib]
  cases a.getLsbD 15 <;> cases b.getLsbD 15
  · simp
  · simp only [Bool.false_xor, if_true, Bool.false_eq_true, if_false]; ac_rfl
  · simp only [Bool.xor_false, if_true, Bool.false_eq_true, if_false]; ac_rfl
  · simp [xor_xor_cancel]

@[simp] theorem crcSteps_zero (n : Nat) : crcSteps n 0#16 = 0#16 := by
  induction n with
  | zero => rfl
  | succ n ih => simp [crcSteps, ih]

theorem crcSteps_xor (n : Nat) (a b : Word16) : crcSteps n (a ^^^ b) = crcSteps n a ^^^ crcSteps n b := by
  induction n generalizing a b with
  | zero => rfl
  | succ n ih => simp [crcSteps, crcStep_xor, ih]

theorem crcAdd_xor (c d : Word16) (x y : Byte) : crcAdd (c ^^^ d) (x ^^^ y) = crcAdd c x ^^^ crcAdd d y := by
  rw [crcAdd, crcAdd, crcAdd, ← crcSteps_xor, BitVec.setWidth_xor, BitVec.shiftLeft_xor_distrib]
  congr 1
  ac_rfl

@[simp] theorem crcAdd_zero_zero : crcAdd 0#16 0#8 = 0#16 := by decide

/-- A zero top byte is shifted out without any XOR. -/
theorem crcSteps_low (l : Byte) : crcSteps 8 (l.setWidth 16) = l.setWidth 16 <<< 8 := by
  revert l; decide

theorem xor_hi8 (c : Word16) : c ^^^ ((hi8 c).setWidth 16 <<< 8) = (lo8 c).setWidth 16 := by
  ext i h
  simp only [BitVec.getElem_xor, BitVec.getElem_shiftLeft, BitVec.getElem_setWidth, hi8, lo8,
    BitVec.getLsbD_extractLsb']
  by_cases h8 : i < 8
  · simp [h8, BitVec.getLsbD_eq_getElem h]
  · simp [h8, show i - 8 < 8 by omega, show 8 + (i - 8) = i by omega, BitVec.getLsbD_eq_getElem h]

/-- The register run through its own two bytes is zero: the kernel of rule R105 (d). -/
theorem crcAdd_own_bytes (c : Word16) : crcAdd (crcAdd c (hi8 c)) (lo8 c) = 0#16 := by
  have h : crcAdd c (hi8 c) = (lo8 c).setWidth 16 <<< 8 := by rw [crcAdd, xor_hi8, crcSteps_low]
  rw [h, crcAdd, BitVec.xor_self, crcSteps_zero]

/-- The step can be undone: the polynomial has a constant term, so bit 0 of the result tells the bit shifted out. -/
theorem crcStep_eq_zero {c : Word16} (h : crcStep c = 0#16) : c = 0#16 := by
  have h0 : (crcStep c).getLsbD 0 = c.getLsbD 15 := by
    simp only [crcStep]
    cases hc : c.getLsbD 15 <;> simp [poly]
  rw [h] at h0
  have h15 : c.getLsbD 15 = false := by rw [← h0]; simp
  simp only [crcStep, h15, Bool.false_eq_true, if_false] at h
  apply BitVec.eq_of_getLsbD_eq
  intro i hi
  by_cases hi15 : i = 15
  · subst hi15; simpa using h15
  · have := congrArg (fun v : Word16 => v.getLsbD (i + 1)) h
    simpa [show i + 1 < 16 by omega, BitVec.getLsbD_eq_getElem hi] using this

theorem crcSteps_eq_zero (n : Nat) {c : Word16} (h : crcSteps n c = 0#16) : c = 0#16 := by
  induction n generalizing c with
  | zero => exact h
  | succ n ih => exact crcStep_eq_zero (ih h)

theorem crcStep_injective {a b : Word16} (h : crcStep a = crcStep b) : a = b := by
  have h0 : crcStep (a ^^^ b) = 0#16 := by rw [crcStep_xor, h, BitVec.xor_self]
  exact BitVec.xor_eq_zero_iff.mp (crcStep_eq_zero h0)

theorem crcOf_append (a b : List Byte) : crcOf (a ++ b) = b.foldl crcAdd (crcOf a) := by
  simp [crcOf, List.foldl_append]

end Sys2Proof.Machine
end

