-- ==== Sys2Proof/Laws/Codec.lean ====
section
/-! SUPPORT. The frame codec: a slice decodes exactly when it is a candidate written out from its fields, and then by
its CRC field alone. -/

namespace Sys2Proof.Machine

theorem frameBody_eq (w : Word16) (c m : Byte) (p : List Byte) :
    frameBody w c m p =
      hi8 w :: lo8 w :: c :: m :: hi8 (BitVec.ofNat 16 p.length) :: lo8 (BitVec.ofNat 16 p.length) :: p := rfl

@[simp] theorem frameBody_length (w : Word16) (c m : Byte) (p : List Byte) :
    (frameBody w c m p).length = 6 + p.length := by
  simp only [frameBody_eq, List.length_cons]; omega

theorem wireFrame_eq_candidate (w : Word16) (c m : Byte) (p : List Byte) :
    wireFrame w c m p = candidate w c m p (crcOf (frameBody w c m p)) := rfl

@[simp] theorem candidate_length (w : Word16) (c m : Byte) (p : List Byte) (k : Word16) :
    (candidate w c m p k).length = 9 + p.length := by
  simp only [candidate, List.length_cons, List.length_append, frameBody_length, bytes16_length]; omega

@[simp] theorem wireFrame_length (w : Word16) (c m : Byte) (p : List Byte) :
    (wireFrame w c m p).length = 9 + p.length := candidate_length ..

theorem candidate_append (w : Word16) (c m : Byte) (p : List Byte) (k : Word16) (t : List Byte) :
    candidate w c m p k ++ t =
      sync :: hi8 w :: lo8 w :: c :: m :: hi8 (BitVec.ofNat 16 p.length) :: lo8 (BitVec.ofNat 16 p.length) ::
        (p ++ bytes16 k ++ t) := by
  simp [candidate, frameBody_eq]

/-- Rule R74: the header of a candidate declares its length. -/
theorem declaredTotal_candidate {w : Word16} {c m : Byte} {p : List Byte} (k : Word16) (t : List Byte)
    (h : p.length ≤ 65535) : declaredTotal (candidate w c m p k ++ t) = 9 + p.length := by
  rw [candidate_append]
  exact congrArg (9 + ·) (lenField_toNat h)

/-- Rule R124 on a candidate: the CRC field decides. -/
theorem decodeSlice_candidate {w : Word16} {c m : Byte} {p : List Byte} {k : Word16} (h : p.length ≤ 65535) :
    decodeSlice (candidate w c m p k) =
      if crcOf (frameBody w c m p) = k then .ok ⟨c, m, p⟩ else .crcMismatch := by
  have htot : declaredTotal (candidate w c m p k) = 9 + p.length := by
    simpa using declaredTotal_candidate k [] h
  have hfull : candidate w c m p k = sync :: (frameBody w c m p ++ bytes16 k) := rfl
  have h1 : slice (candidate w c m p k) 1 (7 + p.length) = frameBody w c m p := by
    rw [hfull, slice, show 7 + p.length = (6 + p.length) + 1 by omega, List.take_succ_cons, List.drop_succ_cons,
      List.drop_zero, ← frameBody_length w c m p, List.take_left]
  have h2 : slice (candidate w c m p k) 7 (7 + p.length) = p := by
    rw [← List.append_nil (candidate w c m p k), candidate_append, slice, Nat.add_comm 7]
    simp
  have h3 : memRead2 (candidate w c m p k) (7 + p.length) = k := by
    rw [← List.append_nil (candidate w c m p k), candidate_append, Nat.add_comm 7]
    simp [memRead2, memRead1, bytes16, show p.length + 7 + 1 = p.length + 1 + 7 by omega]
  have hread : memRead1 (candidate w c m p k) 0 = sync ∧ memRead1 (candidate w c m p k) 3 = c ∧
      memRead1 (candidate w c m p k) 4 = m := ⟨rfl, rfl, rfl⟩
  simp only [decodeSlice, candidate_length, htot, hread, show 9 + p.length - 2 = 7 + p.length by omega, h1, h2, h3]
  simp

/-- Every slice FRAME.DECODE does not call malformed is a candidate written out from its fields. -/
theorem eq_candidate_of_declaredTotal {s : List Byte} (h9 : 9 ≤ s.length) (h0 : memRead1 s 0 = sync)
    (ht : s.length = declaredTotal s) : ∃ w c m p k, p.length ≤ 65535 ∧ s = candidate w c m p k := by
  match s, h9 with
  | f0 :: f1 :: f2 :: f3 :: f4 :: f5 :: f6 :: rest, h9 =>
    simp only [List.length_cons] at h9
    obtain ⟨p, x, y, rfl⟩ : ∃ p x y, rest = p ++ [x, y] := by
      refine ⟨rest.take (rest.length - 2), (rest.drop (rest.length - 2))[0]'(by simp; omega),
        (rest.drop (rest.length - 2))[1]'(by simp; omega), ?_⟩
      conv_lhs => rw [← List.take_append_drop (rest.length - 2) rest]
      congr 1
      apply List.ext_getElem
      · simp; omega
      · intro i hi _
        simp only [List.length_drop] at hi
        match i with
        | 0 => simp
        | 1 => simp
        | i + 2 => omega
    have hN : p.length = (be16 f5 f6).toNat := by
      have : (f0 :: f1 :: f2 :: f3 :: f4 :: f5 :: f6 :: (p ++ [x, y])).length = 9 + (be16 f5 f6).toNat := ht
      simp only [List.length_cons, List.length_append, List.length_nil] at this
      omega
    have hof : BitVec.ofNat 16 p.length = be16 f5 f6 := by rw [hN, BitVec.ofNat_toNat, BitVec.setWidth_eq]
    refine ⟨be16 f1 f2, f3, f4, p, be16 x y, by have := (be16 f5 f6).isLt; omega, ?_⟩
    have h0' : f0 = sync := h0
    rw [← List.append_nil (candidate _ _ _ _ _), candidate_append, hof]
    simp [bytes16, h0']

/-- Rule R125: the three ways to be malformed. -/
theorem decodeSlice_eq_malformed {s : List Byte} :
    decodeSlice s = .malformed ↔ s.length < 9 ∨ memRead1 s 0 ≠ sync ∨ s.length ≠ declaredTotal s := by
  simp only [decodeSlice]
  split
  · next h => simpa using h
  · next h =>
    refine ⟨fun h' => ?_, fun h' => absurd h' h⟩
    split at h' <;> cases h'

/-- The slice a scan cuts at a sync byte is a candidate, so never malformed (rule R125). -/
theorem take_declaredTotal_eq_candidate {b : List Byte} (h0 : memRead1 b 0 = sync)
    (ht : declaredTotal b ≤ b.length) :
    ∃ w c m p k, p.length ≤ 65535 ∧ b.take (declaredTotal b) = candidate w c m p k := by
  have h9 : 9 ≤ declaredTotal b := by simp [declaredTotal]
  have hlen : (b.take (declaredTotal b)).length = declaredTotal b := by simp [ht]
  have happ := (List.take_append_drop (declaredTotal b) b)
  apply eq_candidate_of_declaredTotal
  · omega
  · rw [← happ, memRead1_append (by omega)] at h0; exact h0
  · have h2 : memRead2 b 5 = memRead2 (b.take (declaredTotal b)) 5 := by
      conv_lhs => rw [← happ]
      exact memRead2_append (by omega)
    rw [hlen]
    exact congrArg (fun v : Word16 => 9 + v.toNat) h2

end Sys2Proof.Machine
end

