-- ==== Sys2Proof/Laws/Decode.lean ====
section
/-! SUPPORT. The request encoding: each operand form reads back what was written and nothing else, and which headers
each FRAME row admits. -/

namespace Sys2Proof

open Sys2Proof.Machine

/-! Operand forms, written then read. -/

theorem takeBytes_encodeBytes (l rest : List Byte) : takeBytes (encodeBytes l ++ rest) = .ok (l, rest) := by
  induction l with
  | nil => cases rest <;> simp [encodeBytes, takeBytes]
  | cons b t ih => simp [encodeBytes, takeBytes, ih]

theorem takeBool_encodeBool (c : Bool) (rest : List Byte) : takeBool (encodeBool c :: rest) = .ok (c, rest) := by
  cases c <;> rfl

theorem takeWord32_be32 (v : Word32) (rest : List Byte) : takeWord32 (be32 v ++ rest) = .ok (v, rest) := by
  simp [be32, takeWord32]

theorem idOfByte_byteOfId {id : Nat} (h : id < 256) : idOfByte (byteOfId id) = id := by
  simp only [idOfByte, byteOfId, BitVec.sub_add_cancel, BitVec.toNat_ofNat]; omega

theorem byteOfId_idOfByte (b : Byte) : byteOfId (idOfByte b) = b := by
  rw [byteOfId, idOfByte, BitVec.ofNat_toNat, BitVec.setWidth_eq, BitVec.add_sub_cancel]

theorem idOfByte_lt (b : Byte) : idOfByte b < 256 := (b + 1#8).isLt

theorem charOfByte_byteOfChar {c : Char} (h : c.toNat < 256) : charOfByte (byteOfChar c) = c := by
  simp only [charOfByte, byteOfChar, BitVec.toNat_ofNat]
  rw [Nat.mod_eq_of_lt h, Char.ofNat_toNat]

theorem byteOfChar_charOfByte : ∀ b : Byte, byteOfChar (charOfByte b) = b := by decide

theorem charOfByte_lt : ∀ b : Byte, (charOfByte b).toNat < 256 := by decide

theorem map_idOfByte_byteOfId {ids : List Nat} (h : ids.all antennaIdFits = true) :
    (ids.map byteOfId).map idOfByte = ids := by
  simp only [List.all_eq_true, antennaIdFits, decide_eq_true_eq] at h
  rw [List.map_map]
  exact (List.map_congr_left fun a ha => idOfByte_byteOfId (h a ha)).trans (List.map_id ids)

theorem map_charOfByte_byteOfChar {l : List Char} (h : l.all charFits = true) :
    (l.map byteOfChar).map charOfByte = l := by
  simp only [List.all_eq_true, charFits, decide_eq_true_eq] at h
  rw [List.map_map]
  exact (List.map_congr_left fun a ha => charOfByte_byteOfChar (h a ha)).trans (List.map_id l)

/-! Operand forms, read back to what was written. -/

theorem parseThen_ok {α β : Type} {x : Parsed α} {f : α → List Byte → Parsed β} {y : β × List Byte}
    (h : parseThen x f = .ok y) : ∃ a r, x = .ok (a, r) ∧ f a r = .ok y := by
  unfold parseThen at h
  split at h
  · cases h
  · exact ⟨_, _, rfl, h⟩

theorem takeByte_ok {l rest : List Byte} {b : Byte} (h : takeByte l = .ok (b, rest)) : l = b :: rest := by
  cases l <;> simp_all [takeByte]

theorem takeBool_ok {l rest : List Byte} {c : Bool} (h : takeBool l = .ok (c, rest)) : l = encodeBool c :: rest := by
  cases l with
  | nil => simp [takeBool] at h
  | cons x t =>
    simp only [takeBool] at h
    split at h
    · next hx => cases h; rw [hx]; rfl
    · split at h
      · next hx => cases h; rw [hx]; rfl
      · cases h

theorem be32_ofBe32 (a b c d : Byte) : be32 (ofBe32 a b c d) = [a, b, c, d] := by
  have key : ∀ k x, (ofBe32 a b c d).extractLsb' k 8 = x ↔ ∀ i, i < 8 → (ofBe32 a b c d).getLsbD (k + i) = x.getLsbD i := by
    intro k x
    constructor
    · rintro rfl i hi; simp [hi]
    · intro h; apply BitVec.eq_of_getLsbD_eq; intro i hi; simp [hi, h i hi]
  simp only [be32, List.cons.injEq, and_true, key]
  refine ⟨?_, ?_, ?_, ?_⟩ <;> intro i hi <;>
    simp only [ofBe32, BitVec.getLsbD_or, BitVec.getLsbD_shiftLeft, BitVec.getLsbD_setWidth] <;>
    interval_cases i <;> simp

theorem takeWord32_ok {l rest : List Byte} {v : Word32} (h : takeWord32 l = .ok (v, rest)) : l = be32 v ++ rest := by
  unfold takeWord32 at h
  split at h
  · cases h; rw [be32_ofBe32]; rfl
  · cases h

theorem takeBytes_ok : ∀ (l v rest : List Byte), takeBytes l = .ok (v, rest) → l = encodeBytes v ++ rest
  | [], v, rest, h => by simp [takeBytes] at h
  | [c], v, rest, h => by
    simp only [takeBytes] at h
    split at h
    · next hc => cases h; simp [encodeBytes, hc]
    · split at h <;> cases h
  | c :: b :: t, v, rest, h => by
    simp only [takeBytes] at h
    split at h
    · next hc => cases h; simp [encodeBytes, hc]
    · split at h
      · next hc =>
        cases hr : takeBytes t with
        | error e => rw [hr] at h; cases h
        | ok x =>
          obtain ⟨v', r'⟩ := x
          rw [hr] at h; cases h
          rw [takeBytes_ok t v' rest hr, hc]; rfl
      · cases h

/-! The first byte. -/

theorem decode_select {b : Byte} {n : Nat} (rest : List Byte) (h1 : b.toNat = n) (h2 : n < 16) :
    decode (b :: rest) = decodeOp n rest := by
  subst h1
  have hs : b ≠ sync := by rintro rfl; revert h2; decide
  simp only [decode, if_neg hs, if_pos h2]

theorem FrameRow.ofSelect_select (row : FrameRow) : FrameRow.ofSelect row.select = some row := by cases row <;> rfl

theorem FrameRow.select_ofSelect {b : Byte} {row : FrameRow} (h : FrameRow.ofSelect b = some row) : row.select = b := by
  have hall : ∀ b : Byte, (FrameRow.ofSelect b).all (fun row => row.select == b) = true := by decide
  have := hall b
  rw [h] at this
  simpa using this

theorem FrameRow.select_range (row : FrameRow) : row.select ≠ sync ∧ ¬ row.select.toNat < 16 := by
  cases row <;> decide

/-! The header patterns, rule R79. -/

/-- Which headers a FRAME row admits, by their fields. -/
def FrameRow.Fields (row : FrameRow) (w : Word16) (c m : Byte) : Prop :=
  match row with
  | .any => True
  | .tagReport => w = pcw ∧ c = catInventory ∧ m = midTagReport
  | .startInventory => w = pcw ∧ c = catInventory ∧ m = midStart
  | .writeEpcCmd => w = pcw ∧ c = catInventory ∧ m = midWriteEpc
  | .writeEpcRsp => w = pcw ∧ c = catInventory ∧ m = midWriteEpc
  | .stopInventory => w = pcw ∧ c = catInventory ∧ m = midStop
  | .tagReportClassify => c = catInventory ∧ m = midTagReport
  | .startInventoryClassify => c = catInventory ∧ m = midStart
  | .writeEpcClassify => c = catInventory ∧ m = midWriteEpc
  | .stopInventoryClassify => c = catInventory ∧ m = midStop

theorem FrameRow.admits_iff (row : FrameRow) (w : Word16) (c m hi lo : Byte) :
    row.admits [sync, hi8 w, lo8 w, c, m, hi, lo] = true ↔ row.Fields w c m := by
  have hff : ∀ b : Byte, b &&& 0xFF#8 = b := by decide
  have hz : ∀ b : Byte, b &&& 0#8 = 0#8 := by decide
  have hw : w = pcw ↔ hi8 w = 0#8 ∧ lo8 w = 1#8 := by
    constructor
    · rintro rfl; decide
    · rintro ⟨a, b⟩; rw [← be16_hi8_lo8 w, a, b]; decide
  cases row <;> simp [FrameRow.Fields, FrameRow.admits, FrameRow.maskBytes, FrameRow.matchBytes, hff, hz, hw,
    and_assoc]

/-- Every pattern fixes the sync byte. -/
theorem FrameRow.admits_sync {row : FrameRow} {f0 f1 f2 f3 f4 f5 f6 : Byte}
    (h : row.admits [f0, f1, f2, f3, f4, f5, f6] = true) : f0 = sync := by
  have hff : ∀ b : Byte, b &&& 0xFF#8 = b := by decide
  have := congrArg (fun l : List Byte => l.head?) (of_decide_eq_true h)
  cases row <;> simpa [FrameRow.maskBytes, FrameRow.matchBytes, hff] using this

theorem pickBare_admits {header : List Byte} {row : FrameRow} (h : pickBare header = .ok row) :
    row.admits header = true := by
  unfold pickBare at h
  split at h
  · next hf => cases h; exact List.find?_some (p := fun x : FrameRow => x.admits header) hf
  · cases h

theorem decodeFrame_ok {pick : List Byte → Except DecodeError FrameRow} {row : FrameRow} {w : Word16} {c m : Byte}
    {p rest : List Byte} (hp : p.length ≤ 65535)
    (h : pick [sync, hi8 w, lo8 w, c, m, hi8 (BitVec.ofNat 16 p.length), lo8 (BitVec.ofNat 16 p.length)] = .ok row) :
    decodeFrame pick (sync :: hi8 w :: lo8 w :: c :: m :: hi8 (BitVec.ofNat 16 p.length) ::
      lo8 (BitVec.ofNat 16 p.length) :: (p ++ rest)) = .ok (row.instr w c m p, rest) := by
  simp only [decodeFrame, h]
  rw [lenField_toNat hp, if_neg (by simp), List.take_left, List.drop_left, be16_hi8_lo8]

theorem FrameRow.instr_wellFormed (row : FrameRow) (w : Word16) (c m : Byte) {p : List Byte} (hp : p.length ≤ 65535) :
    (row.instr w c m p).wellFormed = true := by
  cases row <;> simp [FrameRow.instr, Instr.wellFormed, framePayloadFits, hp]

theorem FrameRow.encode_instr {row : FrameRow} {w : Word16} {c m : Byte} {p : List Byte} (h : row.Fields w c m) :
    encode (row.instr w c m p) = encodeFrame row w c m p := by
  cases row <;> simp only [FrameRow.Fields] at h <;> simp only [FrameRow.instr, encode] <;> simp_all

end Sys2Proof
end

