-- ==== Sys2Proof/Laws/Payload.lean ====
section
/-! SUPPORT. The payload layer's operand forms: hexadecimal digits (rule R184), the antenna mask (rule R171), the PC
word and the fields written in two or four bytes (rules R87, R89), and that the WRITE_EPC layout reads back (rule
R87). -/

namespace Sys2Proof.Machine

/-- Rule R12: the high byte, as a number. -/
theorem ofNat_div_hi8 (v : Word16) : BitVec.ofNat 8 (v.toNat / 256) = hi8 v := by
  apply BitVec.eq_of_toNat_eq
  have := v.isLt
  rw [hi8_toNat, BitVec.toNat_ofNat]
  omega

/-- Rule R12: the low byte, as a number. -/
theorem ofNat_mod_lo8 (v : Word16) : BitVec.ofNat 8 (v.toNat % 256) = lo8 v := by
  apply BitVec.eq_of_toNat_eq
  rw [lo8_toNat, BitVec.toNat_ofNat]
  omega

/-- Rule R89 (a): the two bytes of a length that fits. -/
theorem lenField_eq {n : Nat} (h : n ≤ 65535) :
    lenField n = [BitVec.ofNat 8 (n / 256), BitVec.ofNat 8 (n % 256)] := by
  have hn : (BitVec.ofNat 16 n).toNat = n := by rw [BitVec.toNat_ofNat]; omega
  rw [lenField, bytes16, ← ofNat_div_hi8, ← ofNat_mod_lo8, hn]

/-- Rule R89 (d): the two bytes of the PC word. -/
theorem bytes16_pcWord (n : Nat) :
    bytes16 (pcWord n) = [BitVec.ofNat 8 (n * 2048 % 65536 / 256), BitVec.ofNat 8 (n * 2048 % 256)] := by
  have h : (pcWord n).toNat = n * 2048 % 65536 := by
    simp only [pcWord, BitVec.toNat_shiftLeft, BitVec.toNat_ofNat, Nat.shiftLeft_eq]
    omega
  rw [bytes16, ← ofNat_div_hi8, ← ofNat_mod_lo8, h, show n * 2048 % 65536 % 256 = n * 2048 % 256 by omega]

/-- Rule R12: the four bytes of a 32-bit value. -/
theorem be32_eq (v : Word32) : be32 v = [BitVec.ofNat 8 (v.toNat / 16777216), BitVec.ofNat 8 (v.toNat / 65536 % 256),
    BitVec.ofNat 8 (v.toNat / 256 % 256), BitVec.ofNat 8 (v.toNat % 256)] := by
  have := v.isLt
  simp only [be32, List.cons.injEq, and_true, ← BitVec.toNat_inj, BitVec.extractLsb'_toNat, BitVec.toNat_ofNat,
    Nat.shiftRight_eq_div_pow]
  refine ⟨?_, ?_, ?_, ?_⟩ <;> simp only [Nat.reducePow] <;> omega

/-! Hexadecimal digits, rule R184. -/

theorem hexValue_isSome {c : Char} : (hexValue c).isSome = true ↔ isHexDigit c := by
  constructor
  · intro h
    simp only [hexValue] at h
    have hr : (48 ≤ c.toNat ∧ c.toNat ≤ 57) ∨ (65 ≤ c.toNat ∧ c.toNat ≤ 70) ∨ (97 ≤ c.toNat ∧ c.toNat ≤ 102) := by
      split at h
      · next h0 => exact .inl h0
      · split at h
        · next h0 => exact .inr (.inl h0)
        · split at h
          · next h0 => exact .inr (.inr h0)
          · cases h
    rw [(Char.ofNat_toNat c).symm]
    generalize c.toNat = n at hr
    rcases hr with ⟨h1, h2⟩ | ⟨h1, h2⟩ | ⟨h1, h2⟩ <;> interval_cases n <;> decide
  · intro h
    have hall : ((hexAlphabet ++ ['a', 'b', 'c', 'd', 'e', 'f']).all fun c => (hexValue c).isSome) = true := by
      decide
    exact List.all_eq_true.mp hall c h

theorem hexDigits_iff {l : List Char} : hexDigits l = true ↔ ∀ c ∈ l, isHexDigit c := by
  simp [hexDigits, hexValue_isSome]

theorem not_hexDigits_iff {old new : List Char} :
    (¬ hexDigits old = true ∨ ¬ hexDigits new = true) ↔ ∃ c ∈ old ++ new, ¬ isHexDigit c := by
  rw [← not_and_or, hexDigits_iff, hexDigits_iff, ← List.forall_mem_append]
  simp

/-! The antenna mask, rules R89 (c), R171. -/

theorem antennaBit_getLsbD {id : Nat} (h1 : 1 ≤ id) (h4 : id ≤ 4) (j : Nat) :
    (antennaBit id).getLsbD j = decide (j + 1 = id) := by
  have hj : j < 8 ∨ 8 ≤ j := by omega
  rcases hj with hj | hj
  · interval_cases id <;> interval_cases j <;> decide
  · rw [BitVec.getLsbD_of_ge _ _ hj]
    simp only [Bool.false_eq, decide_eq_false_iff_not]
    omega

theorem antennaMask_fold : ∀ (ids : List Nat) (m0 : Byte) (j : Nat), (∀ id ∈ ids, 1 ≤ id ∧ id ≤ 4) →
    (ids.foldl (fun mask id => mask ||| antennaBit id) m0).getLsbD j = (m0.getLsbD j || decide (j + 1 ∈ ids))
  | [], _, _, _ => by simp
  | id :: t, m0, j, h => by
    have hid := h id (by simp)
    rw [List.foldl_cons, antennaMask_fold t _ j (fun x hx => h x (by simp [hx])), BitVec.getLsbD_or,
      antennaBit_getLsbD hid.1 hid.2]
    simp [Bool.or_assoc]

theorem antennaIds_all {ids : List Nat} : ids.all antennaIdOk = true ↔ ∀ id ∈ ids, 1 ≤ id ∧ id ≤ 4 := by
  simp [antennaIdOk_iff]

/-! Layouts, rules R84, R87. -/

/-- Rule R87: `22 + E + B + O` bytes. -/
@[simp] theorem writeEpcPayload_length (size : BitlenSize) (f : WriteEpcFields) :
    (writeEpcPayload size f).length = 22 + f.newEpc.length + size.bytes + f.oldEpc.length := by
  simp only [writeEpcPayload, matchFields, List.length_append, List.length_cons, List.length_nil, bytes16_length,
    lenField_length, be32_length, bitlenField_length]
  omega

@[simp] theorem startPayload_length (mask : Byte) (continuous : Bool) : (startPayload mask continuous).length = 5 :=
  rfl

/-- A START_INVENTORY payload is read as its mask and flag, and nothing else is. -/
theorem readStart_eq {p : List Byte} {mask : Byte} {continuous : Bool} :
    readStart p = .startInventory mask continuous ↔ p = startPayload mask continuous := by
  simp only [readStart]
  constructor
  · intro h
    split at h
    · next h1 => cases h; exact h1
    · split at h
      · next h1 => cases h; exact h1
      · cases h
  · rintro rfl
    cases continuous <;> simp [startPayload, memRead1]

theorem memRead1_skip {l r : List Byte} {n : Nat} (h : l.length = n) (k : Nat) :
    memRead1 (l ++ r) (n + k) = memRead1 r k := by
  subst h
  simp [memRead1, List.getElem?_append_right]

theorem memRead2_skip {l r : List Byte} {n : Nat} (h : l.length = n) (k : Nat) :
    memRead2 (l ++ r) (n + k) = memRead2 r k := by
  rw [memRead2, Nat.add_assoc, memRead1_skip h, memRead1_skip h]; rfl

theorem slice_skip {l m r : List Byte} {n k : Nat} (h : l.length = n) (hk : m.length = k) :
    slice (l ++ (m ++ r)) n (n + k) = m := by
  subst h; subst hk
  rw [slice, ← List.append_assoc, ← List.length_append, List.take_left, List.drop_left]

/-- Rule R87: the fields at the offsets of a payload laid out for them are those fields. -/
theorem writeEpcFieldsAt_payload (size : BitlenSize) (f : WriteEpcFields) (he : 2 + f.newEpc.length ≤ 65535)
    (ho : 3 + size.bytes + f.oldEpc.length ≤ 65535) : writeEpcFieldsAt size (writeEpcPayload size f) = f := by
  obtain ⟨ant, new, old, pw⟩ := f
  simp only at he ho
  have hml : (matchFields size old).length = 3 + size.bytes + old.length := by
    simp only [matchFields, List.length_append, List.length_cons, List.length_nil, bitlenField_length]
  generalize hF : (⟨ant, new, old, pw⟩ : WriteEpcFields) = F
  -- the payload as a head up to the new EPC, the new EPC, a middle, the old EPC, a tail
  let head : List Byte := [0#8, 0#8, 0#8, ant, 1#8, 0#8, 1#8] ++ lenField (2 + new.length) ++ bytes16 (pcWord (new.length / 2))
  let midd : List Byte := lenField (3 + size.bytes + old.length) ++ [1#8, 0#8, 0x20#8] ++ bitlenField size (old.length * 8)
  let tail : List Byte := [2#8] ++ be32 pw
  have hshape : writeEpcPayload size F = head ++ (new ++ ([1#8] ++ midd ++ (old ++ tail))) := by
    simp only [← hF, writeEpcPayload, hml, head, midd, tail]
    simp [matchFields]
  have hhead : head.length = 11 := rfl
  have hmid : ([1#8] ++ midd).length = 6 + size.bytes := by
    simp only [midd, List.length_append, List.length_cons, List.length_nil, bitlenField_length, lenField_length]
    omega
  have h7 : (memRead2 (writeEpcPayload size F) 7).toNat = 2 + new.length := by
    rw [hshape]; exact lenField_toNat he
  have hnew : slice (writeEpcPayload size F) 11 (11 + new.length) = new := by
    rw [hshape]; exact slice_skip hhead rfl
  have h12 : (memRead2 (writeEpcPayload size F) (12 + new.length)).toNat = 3 + size.bytes + old.length := by
    have e : head ++ (new ++ ([1#8] ++ midd ++ (old ++ tail))) = (head ++ new ++ [1#8]) ++ (midd ++ (old ++ tail)) := by
      simp
    have hl : (head ++ new ++ [1#8]).length = 12 + new.length := by
      simp only [List.length_append, hhead, List.length_cons, List.length_nil]; omega
    have := memRead2_skip (r := midd ++ (old ++ tail)) hl 0
    rw [Nat.add_zero] at this
    rw [hshape, e, this]
    exact lenField_toNat ho
  have hpre : (head ++ new ++ ([1#8] ++ midd)).length = 17 + new.length + size.bytes := by
    simp only [List.length_append, hhead] at hmid ⊢; omega
  have e : writeEpcPayload size F = (head ++ new ++ ([1#8] ++ midd)) ++ (old ++ tail) := by
    rw [hshape]; simp
  have hold : slice (writeEpcPayload size F) (17 + new.length + size.bytes) (17 + new.length + size.bytes + old.length) = old := by
    rw [e]; exact slice_skip hpre rfl
  have htail : ∀ k, memRead1 (writeEpcPayload size F) (17 + new.length + size.bytes + old.length + k) = memRead1 tail k := by
    intro k
    rw [e, Nat.add_assoc, memRead1_skip hpre, memRead1_skip rfl]
  have hant : memRead1 (writeEpcPayload size F) 3 = ant := by rw [hshape]; rfl
  simp only [writeEpcFieldsAt, h7, Nat.add_sub_cancel_left, h12, hnew, hold, hant, htail]
  rw [← hF]
  exact congrArg (WriteEpcFields.mk ant new old) (ofBe32_be32 pw)

end Sys2Proof.Machine
end

