-- ==== Sys2Proof/Laws/Scan.lean ====
section
/-! SUPPORT. The scan of the reassembly buffer (rule R141): the three shapes a buffer can have, what the scan does with
each, and that leading bytes without a sync byte are never seen. -/

namespace Sys2Proof.Machine

/-- The three shapes of a buffer: no sync byte; garbage and a wait; garbage and a whole candidate. -/
theorem buffer_cases (b : List Byte) :
    sync ∉ b ∨
    (∃ g t, b = g ++ sync :: t ∧ sync ∉ g ∧
      ((sync :: t).length < 7 ∨ (sync :: t).length < declaredTotal (sync :: t))) ∨
    (∃ g w c m p k rest, b = g ++ (candidate w c m p k ++ rest) ∧ sync ∉ g ∧ p.length ≤ 65535) := by
  by_cases h : sync ∈ b
  · obtain ⟨k, hk⟩ : ∃ k, indexOf sync b = some k := by
      cases hi : indexOf sync b with
      | none => exact absurd h (indexOf_none.mp hi)
      | some k => exact ⟨k, rfl⟩
    obtain ⟨g, t, rfl, hg, -⟩ := indexOf_some.mp hk
    by_cases hs : (sync :: t).length < 7 ∨ (sync :: t).length < declaredTotal (sync :: t)
    · exact .inr (.inl ⟨g, t, rfl, hg, hs⟩)
    · simp only [not_or, Nat.not_lt] at hs
      obtain ⟨w, c, m, p, k, hp, hc⟩ := take_declaredTotal_eq_candidate (b := sync :: t) rfl hs.2
      exact .inr (.inr ⟨g, w, c, m, p, k, (sync :: t).drop (declaredTotal (sync :: t)),
        by rw [← hc, List.take_append_drop], hg, hp⟩)
  · exact .inl h

theorem scanPass_noSync (d : CrcFailDrop) {b : List Byte} (h : sync ∉ b) : scanPass d b = .stop [] := by
  simp [scanPass, indexOf_none.mpr h]

theorem indexOf_garbage {g t : List Byte} (h : sync ∉ g) : indexOf sync (g ++ sync :: t) = some g.length := by
  simp [indexOf_append_of_notMem h]

theorem scanPass_wait (d : CrcFailDrop) {g t : List Byte} (h : sync ∉ g)
    (hw : (sync :: t).length < 7 ∨ (sync :: t).length < declaredTotal (sync :: t)) :
    scanPass d (g ++ sync :: t) = .stop (sync :: t) := by
  simp only [scanPass, indexOf_garbage h, List.drop_left]
  by_cases h1 : (sync :: t).length < hdrLen
  · rw [if_pos h1]
  · rw [if_neg h1, if_pos (hw.resolve_left h1)]

theorem scanPass_candidate (d : CrcFailDrop) {g : List Byte} {w : Word16} {c m : Byte} {p : List Byte} {k : Word16}
    {rest : List Byte} (h : sync ∉ g) (hp : p.length ≤ 65535) :
    scanPass d (g ++ (candidate w c m p k ++ rest)) =
      if crcOf (frameBody w c m p) = k then .resume (.validFrame ⟨c, m, p⟩) rest
      else .resume .corruptFrameDetected ((candidate w c m p k ++ rest).drop (mismatchDrop d (9 + p.length))) := by
  have hi : indexOf sync (g ++ (candidate w c m p k ++ rest)) = some g.length := by
    rw [candidate_append]; exact indexOf_garbage h
  have htake : (candidate w c m p k ++ rest).take (9 + p.length) = candidate w c m p k := by
    rw [← candidate_length w c m p k, List.take_left]
  have hdrop : (candidate w c m p k ++ rest).drop (9 + p.length) = rest := by
    rw [← candidate_length w c m p k, List.drop_left]
  have h7 : ¬ (candidate w c m p k ++ rest).length < hdrLen := by
    rw [List.length_append, candidate_length, hdrLen]; omega
  have ht : ¬ (candidate w c m p k ++ rest).length < 9 + p.length := by
    rw [List.length_append, candidate_length]; omega
  simp only [scanPass, hi, List.drop_left, declaredTotal_candidate k rest hp, if_neg h7, if_neg ht, htake,
    decodeSlice_candidate hp]
  split
  · next heq => split at heq <;> simp_all
  · next heq => split at heq <;> simp_all
  · next heq => split at heq <;> simp_all

theorem mismatchDrop_pos (d : CrcFailDrop) (n : Nat) : 1 ≤ mismatchDrop d (9 + n) := by
  cases d <;> simp only [mismatchDrop] <;> omega

/-- Rule R147: a pass that resumes has removed at least one byte. -/
theorem scanPass_resume_length {d : CrcFailDrop} {b b' : List Byte} {e : Event}
    (h : scanPass d b = .resume e b') : b'.length < b.length := by
  obtain hn | ⟨g, t, rfl, hg, hw⟩ | ⟨g, w, c, m, p, k, rest, rfl, hg, hp⟩ := buffer_cases b
  · rw [scanPass_noSync d hn] at h; cases h
  · rw [scanPass_wait d hg hw] at h; cases h
  · rw [scanPass_candidate d hg hp] at h
    have := mismatchDrop_pos d p.length
    split at h
    · cases h; simp only [List.length_append, candidate_length]; omega
    · cases h; simp only [List.length_append, List.length_drop, candidate_length]; omega

/-- Any number of passes above the length of the buffer gives the same scan. -/
theorem scanFuel_eq (d : CrcFailDrop) : ∀ (n k : Nat) (b : List Byte), b.length < n → b.length < k →
    scanFuel d n b = scanFuel d k b
  | 0, _, _, h, _ => absurd h (Nat.not_lt_zero _)
  | _, 0, _, _, h => absurd h (Nat.not_lt_zero _)
  | n + 1, k + 1, b, hn, hk => by
    simp only [scanFuel]
    cases hp : scanPass d b with
    | stop b' => rfl
    | resume e b' =>
      have := scanPass_resume_length hp
      simp only [scanFuel_eq d n k b' (by omega) (by omega)]

/-- The scan by its first pass. -/
theorem scan_eq (d : CrcFailDrop) (b : List Byte) :
    scan d b = match scanPass d b with
      | .stop b' => ([], b')
      | .resume e b' => (e :: (scan d b').1, (scan d b').2) := by
  rw [scan, scanFuel]
  cases hp : scanPass d b with
  | stop b' => rfl
  | resume e b' =>
    have := scanPass_resume_length hp
    simp only [scan, scanFuel_eq d b.length (b'.length + 1) b' (by omega) (by omega)]

/-- Steps 2 and 7 on a buffer without a sync byte. -/
theorem scan_noSync (d : CrcFailDrop) {b : List Byte} (h : sync ∉ b) : scan d b = ([], []) := by
  rw [scan_eq, scanPass_noSync d h]

/-- Steps 3 to 5 on a buffer that must wait. -/
theorem scan_wait (d : CrcFailDrop) {g t : List Byte} (h : sync ∉ g)
    (hw : (sync :: t).length < 7 ∨ (sync :: t).length < declaredTotal (sync :: t)) :
    scan d (g ++ sync :: t) = ([], sync :: t) := by
  rw [scan_eq, scanPass_wait d h hw]

/-- Step 6 on a whole candidate whose CRC matches. -/
theorem scan_valid (d : CrcFailDrop) {g : List Byte} {w : Word16} {c m : Byte} {p : List Byte} {rest : List Byte}
    (h : sync ∉ g) (hp : p.length ≤ 65535) :
    scan d (g ++ (wireFrame w c m p ++ rest)) = (.validFrame ⟨c, m, p⟩ :: (scan d rest).1, (scan d rest).2) := by
  rw [scan_eq, wireFrame_eq_candidate, scanPass_candidate d h hp, if_pos rfl]

/-- Step 6 on a whole candidate whose CRC does not match. -/
theorem scan_corrupt (d : CrcFailDrop) {g : List Byte} {w : Word16} {c m : Byte} {p : List Byte} {k : Word16}
    {rest : List Byte} (h : sync ∉ g) (hp : p.length ≤ 65535) (hk : crcOf (frameBody w c m p) ≠ k) :
    scan d (g ++ (candidate w c m p k ++ rest)) =
      (.corruptFrameDetected :: (scan d ((candidate w c m p k ++ rest).drop (mismatchDrop d (9 + p.length)))).1,
        (scan d ((candidate w c m p k ++ rest).drop (mismatchDrop d (9 + p.length)))).2) := by
  rw [scan_eq, scanPass_candidate d h hp, if_neg hk]

/-- Step 3: leading bytes without a sync byte change nothing of the scan. -/
theorem scan_garbage (d : CrcFailDrop) {g b : List Byte} (h : sync ∉ g) : scan d (g ++ b) = scan d b := by
  obtain hn | ⟨g', t, rfl, hg, hw⟩ | ⟨g', w, c, m, p, k, rest, rfl, hg, hp⟩ := buffer_cases b
  · rw [scan_noSync d hn, scan_noSync d (by simp [h, hn])]
  · rw [scan_wait d hg hw, ← List.append_assoc, scan_wait d (by simp [h, hg]) hw]
  · rw [← List.append_assoc, scan_eq, scan_eq d (g' ++ _), scanPass_candidate d (by simp [h, hg]) hp,
      scanPass_candidate d hg hp]

end Sys2Proof.Machine
end

