-- ==== Sys2Proof/Laws/Rest.lean ====
section
/-! SUPPORT. The buffer at rest (rule R34): what it looks like, that a scan ends in one, that a scan leaves one alone,
and that a scan can be cut anywhere (the step behind rule R152). -/

namespace Sys2Proof.Machine

/-- Rule R34: empty, or a sync byte and a wait. -/
theorem atRest_cases {b : List Byte} (h : atRest b = true) :
    b = [] ∨ ∃ t, b = sync :: t ∧ ((sync :: t).length < 7 ∨ (sync :: t).length < declaredTotal (sync :: t)) := by
  cases b with
  | nil => exact .inl rfl
  | cons x t =>
    have h1 : memRead1 (x :: t) 0 = x := rfl
    simp only [atRest, reduceCtorEq, decide_false, Bool.false_or, Bool.and_eq_true, Bool.or_eq_true,
      decide_eq_true_eq, h1] at h
    obtain ⟨rfl, h⟩ := h
    exact .inr ⟨t, rfl, h⟩

/-- Rule R34: at most 65543 bytes. -/
theorem atRest_length {b : List Byte} (h : atRest b = true) : b.length ≤ 65543 := by
  obtain rfl | ⟨t, rfl, h'⟩ := atRest_cases h
  · exact Nat.zero_le _
  · rcases h' with h | h
    · omega
    · have := (memRead2 (sync :: t) 5).isLt
      simp only [declaredTotal, overhead] at h
      omega

/-- A scan of a buffer at rest emits nothing and changes nothing. -/
theorem scan_atRest {d : CrcFailDrop} {b : List Byte} (h : atRest b = true) : scan d b = ([], b) := by
  obtain rfl | ⟨t, rfl, h'⟩ := atRest_cases h
  · exact scan_noSync d (by simp)
  · exact scan_wait d (g := []) (by simp) h'

/-- A scan ends at rest, adds no byte, and emits at most one event for each sync byte. -/
theorem scan_spec (d : CrcFailDrop) : ∀ (n : Nat) (b : List Byte), b.length < n →
    atRest (scan d b).2 = true ∧ (scan d b).2.length ≤ b.length ∧ (scan d b).1.length ≤ b.count sync
  | 0, _, h => absurd h (Nat.not_lt_zero _)
  | n + 1, b, h => by
    obtain hn | ⟨g, t, rfl, hg, hw⟩ | ⟨g, w, c, m, p, k, rest, rfl, hg, hp⟩ := buffer_cases b
    · rw [scan_noSync d hn]; exact ⟨rfl, Nat.zero_le _, Nat.zero_le _⟩
    · rw [scan_wait d hg hw]
      refine ⟨?_, by simp, by simp⟩
      simp only [atRest, memRead1]
      rcases hw with h' | h'
      · simp only [List.length_cons] at h'
        simp [show t.length + 1 < 7 by omega]
      · simp only [List.length_cons] at h'; simp [h']
    · have hcount : (candidate w c m p k).count sync = (frameBody w c m p ++ bytes16 k).count sync + 1 := by
        rw [candidate, List.count_cons]; simp
      by_cases hk : crcOf (frameBody w c m p) = k
      · subst hk
        rw [← wireFrame_eq_candidate] at h hcount ⊢
        rw [scan_valid d hg hp]
        have ih := scan_spec d n rest (by simp only [List.length_append, wireFrame_length] at h; omega)
        refine ⟨ih.1, ?_, ?_⟩
        · simp only [List.length_append, wireFrame_length]; omega
        · simp only [List.length_cons, List.count_append, hcount]; omega
      · rw [scan_corrupt d hg hp hk]
        have hm := mismatchDrop_pos d p.length
        have ih := scan_spec d n ((candidate w c m p k ++ rest).drop (mismatchDrop d (9 + p.length)))
          (by simp only [List.length_append, candidate_length, List.length_drop] at h ⊢; omega)
        refine ⟨ih.1, ?_, ?_⟩
        · have := ih.2.1
          simp only [List.length_append, candidate_length, List.length_drop] at this ⊢; omega
        · obtain ⟨j, hj⟩ : ∃ j, mismatchDrop d (9 + p.length) = j + 1 := ⟨_, (Nat.sub_add_cancel hm).symm⟩
          have hdrop : (candidate w c m p k ++ rest).drop (j + 1) = ((frameBody w c m p ++ bytes16 k) ++ rest).drop j := rfl
          have hle := ((frameBody w c m p ++ bytes16 k) ++ rest).drop_sublist j |>.count_le sync
          have h3 := ih.2.2
          rw [hj, hdrop] at h3 ⊢
          simp only [List.length_cons, List.count_append, hcount] at hle ⊢
          omega

theorem scan_ends_atRest (d : CrcFailDrop) (b : List Byte) : atRest (scan d b).2 = true :=
  (scan_spec d _ b (Nat.lt_succ_self _)).1

/-- A scan of `a ++ y` is the scan of `a`, then the scan of what it left followed by `y`. -/
theorem scan_append (d : CrcFailDrop) : ∀ (n : Nat) (a y : List Byte), a.length < n →
    scan d (a ++ y) = ((scan d a).1 ++ (scan d ((scan d a).2 ++ y)).1, (scan d ((scan d a).2 ++ y)).2)
  | 0, _, _, h => absurd h (Nat.not_lt_zero _)
  | n + 1, a, y, h => by
    obtain hn | ⟨g, t, rfl, hg, hw⟩ | ⟨g, w, c, m, p, k, rest, rfl, hg, hp⟩ := buffer_cases a
    · rw [scan_noSync d hn, scan_garbage d hn]; rfl
    · rw [scan_wait d hg hw, List.append_assoc, scan_garbage d hg]; rfl
    · by_cases hk : crcOf (frameBody w c m p) = k
      · subst hk
        rw [← wireFrame_eq_candidate] at h ⊢
        rw [scan_valid d hg hp, List.append_assoc, List.append_assoc, scan_valid d hg hp,
          scan_append d n rest y (by simp only [List.length_append, wireFrame_length] at h; omega)]
        rfl
      · rw [scan_corrupt d hg hp hk, List.append_assoc, List.append_assoc, scan_corrupt d hg hp hk]
        have hm := mismatchDrop_pos d p.length
        have hle : mismatchDrop d (9 + p.length) ≤ (candidate w c m p k ++ rest).length := by
          cases d <;> simp only [mismatchDrop, List.length_append, candidate_length] <;> omega
        rw [← List.append_assoc, List.drop_append_of_le_length hle, scan_append d n _ y
          (by simp only [List.length_append, List.length_drop, candidate_length] at h ⊢; omega)]
        rfl

/-- One whole frame, alone. -/
theorem scan_wireFrame (d : CrcFailDrop) (w : Word16) (c m : Byte) (p : List Byte) (hp : p.length ≤ 65535) :
    scan d (wireFrame w c m p) = ([.validFrame ⟨c, m, p⟩], []) := by
  have h := scan_valid d (w := w) (c := c) (m := m) (g := []) (rest := []) (by simp) hp
  rw [scan_noSync (b := []) _ (by simp)] at h
  simpa using h

end Sys2Proof.Machine
end

