-- ==== Sys2Proof/Laws/Meanings.lean ====
section
/-! SUPPORT. What each shared operation of Machine/Ops.lean answers, and once for all instructions what a next state
can be. -/

namespace Sys2Proof.Machine

/-- Rule R33: the capacity test says there is no room. -/
theorem overCapacity_iff {s : State} {n : Nat} :
    overCapacity s.straps.bufCap (s.buf.length + n) = true ↔ ¬ s.roomFor n := by
  unfold overCapacity State.roomFor
  cases s.straps.bufCap <;> simp

theorem overCapacity_false {s : State} {n : Nat} (h : s.roomFor n) :
    ¬ overCapacity s.straps.bufCap (s.buf.length + n) = true := by
  rw [overCapacity_iff, Classical.not_not]; exact h

/-! RX.FEED, rule R141. -/

theorem feed_room {l : List Byte} {s : State} (h : s.roomFor l.length) :
    feed l s = .next ((s.setBuf (scan s.straps.crcFailDrop (s.buf ++ l)).2).emit
      (.events (scan s.straps.crcFailDrop (s.buf ++ l)).1)) := by
  simp only [feed, if_neg (overCapacity_false h)]

theorem feed_full {l : List Byte} {s : State} (h : ¬ s.roomFor l.length) :
    feed l s = .refused .bufferCapacityExceeded := by
  simp only [feed, if_pos (overCapacity_iff.mpr h)]

/-! FRAME.ENCODE and the builders, rules R121, R122. -/

theorem returnFrame_fits {c m : Byte} {p : List Byte} {s : State} (h : p.length ≤ 65535) :
    returnFrame c m p s = .next (s.emit (.frame (wireFrame pcw c m p))) := by
  have h' : ¬ p.length > lenMax := by rw [lenMax]; omega
  simp only [returnFrame, encodeFrameBytes, if_neg h']

theorem returnFrame_long {c m : Byte} {p : List Byte} {s : State} (h : 65535 < p.length) :
    returnFrame c m p s = .refused .payloadTooLong := by
  have h' : p.length > lenMax := by rw [lenMax]; omega
  simp only [returnFrame, encodeFrameBytes, if_pos h']

/-! The FRAME rows (log entry 6). -/

theorem receive_fits {w : Word16} {c m : Byte} {p : List Byte} {s : State} (hp : p.length ≤ 65535) :
    receive w c m p s = feed (wireFrame w c m p) s := by
  have h' : ¬ p.length > lenMax := by rw [lenMax]; omega
  simp only [receive, if_neg h']

theorem receive_refused {w : Word16} {c m : Byte} {p : List Byte} {s : State}
    (h : 65535 < p.length ∨ ¬ s.roomFor (9 + p.length)) : ∃ r, receive w c m p s = .refused r := by
  by_cases h' : p.length > lenMax
  · exact ⟨.payloadTooLong, by simp only [receive, if_pos h']⟩
  · refine ⟨.bufferCapacityExceeded, ?_⟩
    simp only [receive, if_neg h']
    exact feed_full (by rw [wireFrame_length]; exact h.resolve_left (by rw [lenMax] at h'; omega))

theorem receiveClassified_room {w : Word16} {c m : Byte} {p : List Byte} {s : State} (hp : p.length ≤ 65535)
    (hr : s.roomFor (9 + p.length)) :
    receiveClassified w c m p s = .next (((s.setBuf (scan s.straps.crcFailDrop (s.buf ++ wireFrame w c m p)).2).emit
      (.events (scan s.straps.crcFailDrop (s.buf ++ wireFrame w c m p)).1)).emit
        (.classified ((scan s.straps.crcFailDrop (s.buf ++ wireFrame w c m p)).1.filterMap classifyEvent))) := by
  have h' : ¬ p.length > lenMax := by rw [lenMax]; omega
  have h2 := overCapacity_false (s := s) (n := (wireFrame w c m p).length) (by rw [wireFrame_length]; exact hr)
  simp only [receiveClassified, if_neg h', if_neg h2]

theorem receiveClassified_refused {w : Word16} {c m : Byte} {p : List Byte} {s : State}
    (h : 65535 < p.length ∨ ¬ s.roomFor (9 + p.length)) : ∃ r, receiveClassified w c m p s = .refused r := by
  by_cases h' : p.length > lenMax
  · exact ⟨.payloadTooLong, by simp only [receiveClassified, if_pos h']⟩
  · have h2 : overCapacity s.straps.bufCap (s.buf.length + (wireFrame w c m p).length) = true := by
      rw [overCapacity_iff, wireFrame_length]; exact h.resolve_left (by rw [lenMax] at h'; omega)
    exact ⟨.bufferCapacityExceeded, by simp only [receiveClassified, if_neg h', if_pos h2]⟩

theorem transmit_fits {m : Byte} {layout : Layout} {p : List Byte} {s : State} (h : p.length ≤ 65535) :
    transmit m layout p s = .next (s.emit (.sent (wireFrame pcw catInventory m p) layout)) := by
  have h' : ¬ p.length > lenMax := by rw [lenMax]; omega
  simp only [transmit, if_neg h']

theorem transmit_long {m : Byte} {layout : Layout} {p : List Byte} {s : State} (h : 65535 < p.length) :
    transmit m layout p s = .refused .payloadTooLong := by
  have h' : p.length > lenMax := by rw [lenMax]; omega
  simp only [transmit, if_pos h']

/-! EPCW.BUILD, rule R179, by its first test that fires. -/

section EpcwBuild
variable {old new : List Char} {id : Nat} {pw : Word32} {s : State}

theorem epcwBuild_notHex (h : ∃ c ∈ old ++ new, ¬ isHexDigit c) :
    execEpcwBuild old new id pw s = .refused .notHexDigits := by
  simp only [execEpcwBuild, if_pos (not_hexDigits_iff.mpr h)]

theorem epcwBuild_oddOld (h : ∀ c ∈ old ++ new, isHexDigit c) (ho : old.length % 2 ≠ 0) :
    execEpcwBuild old new id pw s = .refused .oddOldEpcLength := by
  have hx : ¬ (¬ hexDigits old = true ∨ ¬ hexDigits new = true) := by
    rw [not_hexDigits_iff]; rintro ⟨c, hc, hn⟩; exact hn (h c hc)
  simp only [execEpcwBuild, if_neg hx, if_pos ho]

theorem epcwBuild_badId (h : ∀ c ∈ old ++ new, isHexDigit c) (ho : old.length % 2 = 0) (hid : ¬ (1 ≤ id ∧ id ≤ 4)) :
    execEpcwBuild old new id pw s = .refused .antennaIdOutOfRange := by
  have hx : ¬ (¬ hexDigits old = true ∨ ¬ hexDigits new = true) := by
    rw [not_hexDigits_iff]; rintro ⟨c, hc, hn⟩; exact hn (h c hc)
  simp only [execEpcwBuild, if_neg hx, if_neg (show ¬ old.length % 2 ≠ 0 by omega),
    if_pos (fun h => hid (antennaIdOk_iff.mp h) : ¬ antennaIdOk id = true)]

theorem epcwBuild_newLength (h : ∀ c ∈ old ++ new, isHexDigit c) (ho : old.length % 2 = 0) (hid : 1 ≤ id ∧ id ≤ 4)
    (hn : new.length % 4 ≠ 0) : execEpcwBuild old new id pw s = .next (s.emit .invalidEpcLength) := by
  have hx : ¬ (¬ hexDigits old = true ∨ ¬ hexDigits new = true) := by
    rw [not_hexDigits_iff]; rintro ⟨c, hc, hn⟩; exact hn (h c hc)
  simp only [execEpcwBuild, if_neg hx, if_neg (show ¬ old.length % 2 ≠ 0 by omega),
    if_neg (fun h => h (antennaIdOk_iff.mpr hid) : ¬ ¬ antennaIdOk id = true), if_pos hn]

theorem epcwBuild_build (h : ∀ c ∈ old ++ new, isHexDigit c) (ho : old.length % 2 = 0) (hid : 1 ≤ id ∧ id ≤ 4)
    (hn : new.length % 4 = 0) :
    execEpcwBuild old new id pw s =
      if old.length / 2 * 8 < 256 ^ s.straps.bitlenSize.bytes then
        returnFrame catInventory midWriteEpc (writeEpcPayload s.straps.bitlenSize
          { antenna := antennaBit id, newEpc := bytesOfHex new, oldEpc := bytesOfHex old, password := pw }) s
      else .refused .bitLengthDoesNotFit := by
  have hx : ¬ (¬ hexDigits old = true ∨ ¬ hexDigits new = true) := by
    rw [not_hexDigits_iff]; rintro ⟨c, hc, hn⟩; exact hn (h c hc)
  simp only [execEpcwBuild, if_neg hx, if_neg (show ¬ old.length % 2 ≠ 0 by omega),
    if_neg (fun h => h (antennaIdOk_iff.mpr hid) : ¬ ¬ antennaIdOk id = true),
    if_neg (show ¬ new.length % 4 ≠ 0 by omega), bytesOfHex_length, bitlenFits, decide_eq_true_eq]
  by_cases hb : old.length / 2 * 8 < 256 ^ s.straps.bitlenSize.bytes
  · rw [if_neg (Classical.not_not.mpr hb), if_pos hb]
  · rw [if_pos hb, if_neg hb]

end EpcwBuild

/-! What a next state can be. -/

/-- The results appended, the buffer and the CRC register of a next state; everything else is as before. -/
def Changes (i : Instr) (s t : State) : Prop :=
  ∃ c b l, t = { s with crc := c, buf := b, results := s.results ++ l } ∧ l.length ≤ 2 ∧
    (i.touchesCrc = false → c = s.crc) ∧ (i.touchesBuf = false → b = s.buf) ∧
    (i.touchesBuf = true → atRest b = true)

theorem Changes.of_emit {i : Instr} {s : State} {r : Result} (hb : i.touchesBuf = false) : Changes i s (s.emit r) :=
  ⟨s.crc, s.buf, [r], rfl, by simp, fun _ => rfl, fun _ => rfl, fun h => by rw [hb] at h; cases h⟩

theorem Changes.of_returnFrame {i : Instr} {s t : State} {c m : Byte} {p : List Byte} (hb : i.touchesBuf = false)
    (h : returnFrame c m p s = .next t) : Changes i s t := by
  by_cases hp : p.length ≤ 65535
  · rw [returnFrame_fits hp] at h; cases h; exact .of_emit hb
  · rw [returnFrame_long (by omega)] at h; cases h

theorem Changes.of_transmit {i : Instr} {s t : State} {m : Byte} {layout : Layout} {p : List Byte}
    (hb : i.touchesBuf = false) (h : transmit m layout p s = .next t) : Changes i s t := by
  by_cases hp : p.length ≤ 65535
  · rw [transmit_fits hp] at h; cases h; exact .of_emit hb
  · rw [transmit_long (by omega)] at h; cases h

theorem Changes.of_feed {i : Instr} {s t : State} {l : List Byte} (hb : i.touchesBuf = true)
    (h : feed l s = .next t) : Changes i s t := by
  by_cases hr : s.roomFor l.length
  · rw [feed_room hr] at h; cases h
    exact ⟨s.crc, _, [_], rfl, by simp, fun _ => rfl, fun h' => absurd (hb.symm.trans h') nofun,
      fun _ => scan_ends_atRest _ _⟩
  · rw [feed_full hr] at h; cases h

theorem Changes.of_receive {i : Instr} {s t : State} {w : Word16} {c m : Byte} {p : List Byte}
    (hb : i.touchesBuf = true) (h : receive w c m p s = .next t) : Changes i s t := by
  unfold receive at h
  split at h
  · cases h
  · exact .of_feed hb h

theorem Changes.of_receiveClassified {i : Instr} {s t : State} {w : Word16} {c m : Byte} {p : List Byte}
    (hb : i.touchesBuf = true) (h : receiveClassified w c m p s = .next t) : Changes i s t := by
  unfold receiveClassified at h
  split at h
  · cases h
  · split at h
    · cases h
    · cases h
      exact ⟨s.crc, _, [_, _], by simp only [State.emit, State.setBuf, List.append_assoc]; rfl, by simp,
        fun _ => rfl, fun h' => absurd (hb.symm.trans h') nofun, fun _ => scan_ends_atRest _ _⟩

/-- Once for all instructions: what a next state of `exec` can be. -/
theorem exec_changes {i : Instr} {s t : State} (h : exec i s = .next t) : Changes i s t := by
  cases i with
  | reset => cases h; exact ⟨_, _, [], by rw [List.append_nil]; rfl, by simp, nofun, nofun, fun _ => rfl⟩
  | crcClear => cases h; exact ⟨_, _, [], by rw [List.append_nil]; rfl, by simp, nofun, fun _ => rfl, nofun⟩
  | crcBit => cases h; exact ⟨_, _, [], by rw [List.append_nil]; rfl, by simp, nofun, fun _ => rfl, nofun⟩
  | crcByte b => cases h; exact ⟨_, _, [], by rw [List.append_nil]; rfl, by simp, nofun, fun _ => rfl, nofun⟩
  | crcCompute l => cases h; exact ⟨_, _, [_], rfl, by simp, nofun, fun _ => rfl, nofun⟩
  | frameEncode c m p => exact .of_returnFrame rfl h
  | frameDecode l => cases h; exact .of_emit rfl
  | frameTryDecode b => cases h; exact .of_emit rfl
  | rxFeed l => exact .of_feed rfl h
  | rxByte b => exact .of_feed rfl h
  | invStart ids c =>
    simp only [exec, execInvStart] at h
    split at h
    · exact .of_returnFrame rfl h
    · cases h
  | invStop => exact .of_returnFrame (c := catInventory) (m := midStop) (p := []) rfl h
  | tagParse p => cases h; exact .of_emit rfl
  | epcwBuild old new id pw =>
    simp only [exec, execEpcwBuild] at h
    split at h
    · cases h
    · split at h
      · cases h
      · split at h
        · cases h
        · split at h
          · cases h; exact .of_emit rfl
          · split at h
            · cases h
            · exact .of_returnFrame rfl h
  | wresParse p => cases h; exact .of_emit rfl
  | unassigned => cases h
  | frameAny w c m p => exact .of_receive rfl h
  | tagReport p => exact .of_receiveClassified rfl h
  | startInventory p => exact .of_transmit rfl h
  | writeEpcCmd p => exact .of_transmit rfl h
  | writeEpcRsp p => exact .of_receiveClassified rfl h
  | stopInventory p => exact .of_transmit rfl h
  | tagReportClassify w p => exact .of_receiveClassified rfl h
  | startInventoryClassify w p => exact .of_receiveClassified rfl h
  | writeEpcClassify w p => exact .of_receiveClassified rfl h
  | stopInventoryClassify w p => exact .of_receiveClassified rfl h

/-- What a step can be: the idle step, or an operation on the state whose request has been taken. -/
theorem step_cases {s t : State} (h : step s = .next t) :
    (s.requests = [] ∧ t = s) ∨ ∃ i rest, decode s.requests = .ok (i, rest) ∧ exec i (s.setRequests rest) = .next t := by
  unfold step fetch at h
  cases hr : s.requests with
  | nil => simp only [hr] at h; cases h; exact .inl ⟨rfl, rfl⟩
  | cons b rest =>
    simp only [hr] at h
    cases hd : decode (b :: rest) with
    | error e => rw [hd] at h; cases h
    | ok x => rw [hd] at h; exact .inr ⟨x.1, x.2, rfl, h⟩

end Sys2Proof.Machine
end

