-- ==== Sys2Proof/Laws/Memory.lean ====
section
/-! SUPPORT. The reassembly buffer as a memory: its cells always have the canonical form (log entry 7), so every
operation that changes it keeps the form, and what a byte of it reads as after an append and after a removal. -/

namespace Sys2Proof.Machine

theorem cellsRising_zipIdx : ∀ (l : List Byte) (n : Nat), cellsRising ((l.zipIdx n).map fun p => (p.2, p.1)) = true
  | [], _ => rfl
  | [_], _ => rfl
  | a :: b :: t, n => by
    have h := cellsRising_zipIdx (b :: t) (n + 1)
    simp only [List.zipIdx_cons, List.map_cons] at h ⊢
    simp only [cellsRising, h, Bool.and_true, decide_eq_true_eq]
    exact Nat.lt_succ_self n

/-- Every buffer has the canonical form. -/
theorem memory_wf (m : List Byte) : Memory.wf m = true := cellsRising_zipIdx m 0

/-- The buffer at reset has the canonical form. -/
theorem memory_wf_reset : Memory.wf State.reset.buf = true := memory_wf _

/-- Every update of the buffer keeps the canonical form. -/
theorem memory_wf_setBuf (s : State) (b : List Byte) : Memory.wf (s.setBuf b).buf = true := memory_wf _

/-- Two buffers with the same cells are the same buffer. -/
theorem bufCells_injective {a b : List Byte} (h : bufCells a = bufCells b) : a = b := by
  have key : ∀ m : List Byte, (bufCells m).map (·.2) = m := by
    intro m
    simp only [bufCells, List.map_map]
    exact (List.map_congr_left fun _ _ => rfl).trans (List.zipIdx_map_fst ..)
  rw [← key a, h, key b]

/-- Rule R142: an append leaves every byte held where it was. -/
theorem bufByte_append {m l : List Byte} {k : Nat} (h : k < m.length) : bufByte (m ++ l) k = bufByte m k :=
  List.getElem?_append_left h

/-- A removal of `n` bytes from the head moves every byte `n` offsets down. -/
theorem bufByte_drop (m : List Byte) (n k : Nat) : bufByte (m.drop n) k = bufByte m (n + k) :=
  List.getElem?_drop

end Sys2Proof.Machine
end

