-- ==== Sys2Proof/Laws/PerInstr.lean ====
section
/-! SUPPORT. Per-instruction families. SelectByte: every encoding begins with the byte that names its row, the row's
place in spec/opcode_table.json (log entry 4), so no two rows share a first byte. -/

namespace Sys2Proof

/-- The row's place in spec/opcode_table.json, from 0. -/
def Instr.tableIndex : Instr → Nat
  | .reset => 0
  | .crcClear => 1
  | .crcBit => 2
  | .crcByte _ => 3
  | .crcCompute _ => 4
  | .frameEncode _ _ _ => 5
  | .frameDecode _ => 6
  | .frameTryDecode _ => 7
  | .rxFeed _ => 8
  | .rxByte _ => 9
  | .invStart _ _ => 10
  | .invStop => 11
  | .tagParse _ => 12
  | .epcwBuild _ _ _ _ => 13
  | .wresParse _ => 14
  | .unassigned => 15
  | .frameAny _ _ _ _ => 16
  | .tagReport _ => 17
  | .startInventory _ => 18
  | .writeEpcCmd _ => 19
  | .writeEpcRsp _ => 20
  | .stopInventory _ => 21
  | .tagReportClassify _ _ => 22
  | .startInventoryClassify _ _ => 23
  | .writeEpcClassify _ _ => 24
  | .stopInventoryClassify _ _ => 25

namespace Laws.SelectByte

/-- The first byte of the encoding is the row's place in the table. -/
def Statement (i : Instr) : Prop := ∃ rest, encode i = BitVec.ofNat 8 i.tableIndex :: rest

theorem reset : Statement .reset := ⟨_, rfl⟩
theorem crcClear : Statement .crcClear := ⟨_, rfl⟩
theorem crcBit : Statement .crcBit := ⟨_, rfl⟩
theorem crcByte (b : Byte) : Statement (.crcByte b) := ⟨_, rfl⟩
theorem crcCompute (l : List Byte) : Statement (.crcCompute l) := ⟨_, rfl⟩
theorem frameEncode (c m : Byte) (p : List Byte) : Statement (.frameEncode c m p) := ⟨_, rfl⟩
theorem frameDecode (l : List Byte) : Statement (.frameDecode l) := ⟨_, rfl⟩
theorem frameTryDecode (l : List Byte) : Statement (.frameTryDecode l) := ⟨_, rfl⟩
theorem rxFeed (l : List Byte) : Statement (.rxFeed l) := ⟨_, rfl⟩
theorem rxByte (b : Byte) : Statement (.rxByte b) := ⟨_, rfl⟩
theorem invStart (ids : List Nat) (c : Bool) : Statement (.invStart ids c) := ⟨_, rfl⟩
theorem invStop : Statement .invStop := ⟨_, rfl⟩
theorem tagParse (l : List Byte) : Statement (.tagParse l) := ⟨_, rfl⟩
theorem epcwBuild (o n : List Char) (id : Nat) (pw : Word32) : Statement (.epcwBuild o n id pw) := ⟨_, rfl⟩
theorem wresParse (l : List Byte) : Statement (.wresParse l) := ⟨_, rfl⟩
theorem unassigned : Statement .unassigned := ⟨_, rfl⟩
theorem frameAny (w : Word16) (c m : Byte) (p : List Byte) : Statement (.frameAny w c m p) := ⟨_, rfl⟩
theorem tagReport (p : List Byte) : Statement (.tagReport p) := ⟨_, rfl⟩
theorem startInventory (p : List Byte) : Statement (.startInventory p) := ⟨_, rfl⟩
theorem writeEpcCmd (p : List Byte) : Statement (.writeEpcCmd p) := ⟨_, rfl⟩
theorem writeEpcRsp (p : List Byte) : Statement (.writeEpcRsp p) := ⟨_, rfl⟩
theorem stopInventory (p : List Byte) : Statement (.stopInventory p) := ⟨_, rfl⟩
theorem tagReportClassify (w : Word16) (p : List Byte) : Statement (.tagReportClassify w p) := ⟨_, rfl⟩
theorem startInventoryClassify (w : Word16) (p : List Byte) : Statement (.startInventoryClassify w p) := ⟨_, rfl⟩
theorem writeEpcClassify (w : Word16) (p : List Byte) : Statement (.writeEpcClassify w p) := ⟨_, rfl⟩
theorem stopInventoryClassify (w : Word16) (p : List Byte) : Statement (.stopInventoryClassify w p) := ⟨_, rfl⟩

end Laws.SelectByte

end Sys2Proof
end

