-- ==== Sys2Proof/Tests/Slice0.lean ====
section
/-! SUPPORT. The model's own tests: an ill-formed term for each check of WellFormed, words written out from the tables
of 30_encoding.md, one or two values per operation from 95_test_vectors.md, and for every statement that has
hypotheses a concrete state and operands that meet them. -/

-- One theorem after the other: side by side they take more memory than the check of the whole package allows.
set_option Elab.async false

namespace Sys2Proof.Tests

open Sys2Proof Sys2Proof.Machine

/-! Helpers. -/

/-- A state with CRC_FAIL_DROP = `d` and the buffer `b`. -/
def holding (d : CrcFailDrop) (b : List Byte) : State :=
  { State.reset with straps := { Straps.default with crcFailDrop := d }, buf := b }

/-- What an outcome shows: the CRC register, the buffer, the returned values. -/
def shows : Outcome → Option (Word16 × List Byte × List Result)
  | .next t => some (t.crc, t.buf, t.results)
  | .fault _ => none
  | .refused _ => none

/-- The refusal of an outcome. -/
def refusalOf : Outcome → Option Refusal
  | .refused r => some r
  | .next _ => none
  | .fault _ => none

/-- The instruction a request decodes to, and the bytes after it. -/
def reads (l : List Byte) : Option (Instr × List Byte) :=
  match decode l with
  | .ok x => some x
  | .error _ => none

/-- V21, the STOP_INVENTORY frame. -/
def v21 : List Byte := [0x5A#8, 0x00#8, 0x01#8, 0x02#8, 0xFF#8, 0x00#8, 0x00#8, 0x88#8, 0x5A#8]

/-- V22, START_INVENTORY for antenna 1, continuous. -/
def v22 : List Byte :=
  [0x5A#8, 0x00#8, 0x01#8, 0x02#8, 0x10#8, 0x00#8, 0x05#8, 0x00#8, 0x00#8, 0x00#8, 0x01#8, 0x01#8, 0xF4#8, 0x87#8]

/-- V24, a TAG_REPORT frame. -/
def v24 : List Byte :=
  [0x5A#8, 0x00#8, 0x01#8, 0x02#8, 0x00#8, 0x00#8, 0x07#8, 0x00#8, 0x02#8, 0xAB#8, 0xCD#8, 0x00#8, 0x00#8, 0x01#8,
    0xB3#8, 0x06#8]

/-- The payload of V22. -/
def p22 : List Byte := [0x00#8, 0x00#8, 0x00#8, 0x01#8, 0x01#8]

/-- The payload of V24 and V57. -/
def p24 : List Byte := [0x00#8, 0x02#8, 0xAB#8, 0xCD#8, 0x00#8, 0x00#8, 0x01#8]

/-! WellFormed: an ill-formed term for each check. -/

theorem test_wellFormed_payload_too_long :
    (Instr.frameAny 0#16 0#8 0#8 (List.replicate 65536 0#8)).wellFormed = false ∧
    (Instr.tagReport (List.replicate 65536 0#8)).wellFormed = false ∧
    (Instr.startInventory (List.replicate 65536 0#8)).wellFormed = false ∧
    (Instr.writeEpcCmd (List.replicate 65536 0#8)).wellFormed = false ∧
    (Instr.writeEpcRsp (List.replicate 65536 0#8)).wellFormed = false ∧
    (Instr.stopInventory (List.replicate 65536 0#8)).wellFormed = false ∧
    (Instr.tagReportClassify 0#16 (List.replicate 65536 0#8)).wellFormed = false ∧
    (Instr.startInventoryClassify 0#16 (List.replicate 65536 0#8)).wellFormed = false ∧
    (Instr.writeEpcClassify 0#16 (List.replicate 65536 0#8)).wellFormed = false ∧
    (Instr.stopInventoryClassify 0#16 (List.replicate 65536 0#8)).wellFormed = false := by
  have h : framePayloadFits (List.replicate 65536 0#8) = false := by
    rw [framePayloadFits, List.length_replicate]; decide
  exact ⟨h, h, h, h, h, h, h, h, h, h⟩

theorem test_wellFormed_antenna_id :
    (Instr.invStart [1, 256] true).wellFormed = false ∧ (Instr.epcwBuild [] [] 256 0#32).wellFormed = false := by
  decide +kernel

theorem test_wellFormed_characters :
    (Instr.epcwBuild [Char.ofNat 256] [] 1 0#32).wellFormed = false ∧
    (Instr.epcwBuild [] [Char.ofNat 256] 1 0#32).wellFormed = false := by decide +kernel

/-! Decoding: the select codes of rule R91 and the header patterns of rule R79. -/

theorem test_words_of_select_codes :
    decodeTableWord 8 0x0 = some .reset ∧ decodeTableWord 8 0x1 = some .crcClear ∧
    decodeTableWord 8 0x2 = some .crcBit ∧ decodeTableWord 8 0x3 = some (.crcByte 0x00#8) ∧
    decodeTableWord 8 0x4 = some (.crcCompute []) ∧
    decodeTableWord 8 0x5 = some (.frameEncode 0x00#8 0x00#8 []) ∧
    decodeTableWord 8 0x6 = some (.frameDecode []) ∧ decodeTableWord 8 0x7 = some (.frameTryDecode []) ∧
    decodeTableWord 8 0x8 = some (.rxFeed []) ∧ decodeTableWord 8 0x9 = some (.rxByte 0x00#8) ∧
    decodeTableWord 8 0xA = some (.invStart [] false) ∧ decodeTableWord 8 0xB = some .invStop ∧
    decodeTableWord 8 0xC = some (.tagParse []) ∧ decodeTableWord 8 0xD = some (.epcwBuild [] [] 1 0#32) ∧
    decodeTableWord 8 0xE = some (.wresParse []) ∧ decodeTableWord 8 0xF = some .unassigned := by decide +kernel

theorem test_words_of_header_patterns :
    decodeTableWord 56 0x5A000000000000 = some (.frameAny 0x0000#16 0x00#8 0x00#8 []) ∧
    decodeTableWord 56 0x5A000102000000 = some (.tagReport []) ∧
    decodeTableWord 56 0x5A000102100000 = some (.startInventory []) ∧
    decodeTableWord 56 0x5A000102110000 = some (.writeEpcCmd []) ∧
    decodeTableWord 56 0x5A000102FF0000 = some (.stopInventory []) ∧
    decodeTableWord 56 0x5A000002000000 = some (.tagReportClassify 0x0000#16 []) ∧
    decodeTableWord 56 0x5A000002100000 = some (.startInventoryClassify 0x0000#16 []) ∧
    decodeTableWord 56 0x5A000002110000 = some (.writeEpcClassify 0x0000#16 []) ∧
    decodeTableWord 56 0x5A000002FF0000 = some (.stopInventoryClassify 0x0000#16 []) := by decide +kernel

/-- The same words with their bytes in the order of the wire, `f[0]` in the least significant byte. -/
theorem test_words_in_wire_order :
    decodeTableWord 56 0x0000100201005A = some (.startInventory []) ∧
    decodeTableWord 56 0x0200FF0234125A = some (.stopInventoryClassify 0x1234#16 [0x00#8, 0x00#8]) := by decide +kernel

theorem test_reads_operations_with_operands :
    reads [0x03#8, 0x80#8, 0x77#8] = some (.crcByte 0x80#8, [0x77#8]) ∧
    reads [0x04#8, 0x01#8, 0x31#8, 0x01#8, 0x32#8, 0x00#8] = some (.crcCompute [0x31#8, 0x32#8], []) ∧
    reads [0x05#8, 0x02#8, 0xFF#8, 0x01#8, 0x00#8, 0x00#8] = some (.frameEncode 0x02#8 0xFF#8 [0x00#8], []) ∧
    reads [0x06#8, 0x01#8, 0x5A#8, 0x00#8] = some (.frameDecode [0x5A#8], []) ∧
    reads [0x07#8, 0x01#8, 0x5A#8, 0x00#8] = some (.frameTryDecode [0x5A#8], []) ∧
    reads [0x08#8, 0x01#8, 0x01#8, 0x01#8, 0x00#8, 0x00#8, 0x09#8] = some (.rxFeed [0x01#8, 0x00#8], [0x09#8]) ∧
    reads [0x09#8, 0x5A#8] = some (.rxByte 0x5A#8, []) := by decide +kernel

theorem test_reads_payload_operations :
    reads [0x0A#8, 0x01#8, 0x00#8, 0x01#8, 0x02#8, 0x00#8, 0x01#8] = some (.invStart [1, 3] true, []) ∧
    reads [0x0C#8, 0x01#8, 0x07#8, 0x00#8] = some (.tagParse [0x07#8], []) ∧
    reads [0x0D#8, 0x01#8, 0x41#8, 0x01#8, 0x62#8, 0x00#8, 0x00#8, 0x04#8, 0x12#8, 0x34#8, 0x56#8, 0x78#8] =
      some (.epcwBuild ['A', 'b'] [] 5 0x12345678#32, []) ∧
    reads [0x0E#8, 0x01#8, 0x10#8, 0x00#8] = some (.wresParse [0x10#8], []) := by decide +kernel

theorem test_reads_selected_frames :
    reads [0x10#8, 0x5A#8, 0x12#8, 0x34#8, 0x02#8, 0xFF#8, 0x00#8, 0x01#8, 0x09#8, 0x0A#8] =
      some (.frameAny 0x1234#16 0x02#8 0xFF#8 [0x09#8], [0x0A#8]) ∧
    reads [0x11#8, 0x5A#8, 0x00#8, 0x01#8, 0x02#8, 0x00#8, 0x00#8, 0x01#8, 0x07#8] = some (.tagReport [0x07#8], []) ∧
    reads [0x13#8, 0x5A#8, 0x00#8, 0x01#8, 0x02#8, 0x11#8, 0x00#8, 0x00#8] = some (.writeEpcCmd [], []) ∧
    reads [0x14#8, 0x5A#8, 0x00#8, 0x01#8, 0x02#8, 0x11#8, 0x00#8, 0x01#8, 0x10#8] =
      some (.writeEpcRsp [0x10#8], []) ∧
    reads [0x18#8, 0x5A#8, 0xAB#8, 0xCD#8, 0x02#8, 0x11#8, 0x00#8, 0x00#8] =
      some (.writeEpcClassify 0xABCD#16 [], []) := by decide +kernel

/-- Reserved and broken requests are refused by name, not read as a neighbour. -/
theorem test_decode_refuses :
    decode [0x1A#8] = .error (.unknownSelect 0x1A#8) ∧ decode [0x03#8] = .error .truncated ∧
    decode [0x04#8, 0x02#8] = .error (.badContinuation 0x02#8) ∧
    decode [0x0A#8, 0x00#8, 0x02#8] = .error (.badBoolean 0x02#8) ∧
    decode [0x11#8, 0x5A#8, 0x00#8, 0x02#8, 0x02#8, 0x00#8, 0x00#8, 0x00#8] = .error (.headerMismatch .tagReport) ∧
    decode [0x5A#8, 0x00#8, 0x01#8, 0x02#8, 0x00#8, 0x00#8, 0x01#8] = .error .truncated := ⟨rfl, rfl, rfl, rfl, rfl, rfl⟩

/-! CRC16Engine: V9 and the steps of 95_test_vectors.md B.1. -/

theorem test_crc_check_value :
    shows (exec (.crcCompute [0x31#8, 0x32#8, 0x33#8, 0x34#8, 0x35#8, 0x36#8, 0x37#8, 0x38#8, 0x39#8]) State.reset) =
      some (0x31C3#16, [], [.crc 0x31C3#16]) := by decide +kernel

theorem test_crc_order_of_bytes :
    crcOf [0x01#8, 0x00#8] = 0x3331#16 ∧ crcOf [0x00#8, 0x01#8] = 0x1021#16 := by decide +kernel

theorem test_crcBit_corners :
    crcStep 0x8000#16 = 0x1021#16 ∧ crcStep 0x7FFF#16 = 0xFFFE#16 ∧ crcStep 0xFFFF#16 = 0xEFDF#16 ∧
    crcStep 0x8108#16 = 0x1231#16 ∧ crcStep 0x4000#16 = 0x8000#16 := by decide +kernel

theorem test_crcByte : shows (exec (.crcByte 0x80#8) State.reset) = some (0x9188#16, [], []) := by decide +kernel

theorem test_crcClear :
    shows (exec .crcClear { State.reset with crc := 0xBEEF#16 }) = some (0x0000#16, [], []) := by decide +kernel

/-! RESET: the example of rule R231. -/

theorem test_reset :
    shows (exec .reset { holding .candidate [0x5A#8, 0x00#8, 0x01#8] with crc := 0x1234#16 }) =
      some (0x0000#16, [], []) := by decide +kernel

/-! FrameCodec. -/

/-- V22. -/
theorem test_encode_v22 : shows (exec (.frameEncode 0x02#8 0x10#8 p22) State.reset) = some (0#16, [], [.frame v22]) := by
  decide +kernel

/-- V23: a sync value inside the payload is not escaped. -/
theorem test_encode_v23 : shows (exec (.frameEncode 0xFF#8 0xFF#8 [0x5A#8]) State.reset) = some (0#16, [],
    [.frame [0x5A#8, 0x00#8, 0x01#8, 0xFF#8, 0xFF#8, 0x00#8, 0x01#8, 0x5A#8, 0x9C#8, 0x22#8]]) := by decide +kernel

/-- V29, V30, V31. -/
theorem test_decode_v29_to_v31 :
    decodeSlice v21 = .ok ⟨0x02#8, 0xFF#8, []⟩ ∧ decodeSlice (v21.dropLast ++ [0x5B#8]) = .crcMismatch ∧
    decodeSlice v21.dropLast = .malformed ∧ decodeSlice (0x00#8 :: v21.drop 1) = .malformed ∧
    decodeSlice (v21 ++ [0x00#8]) = .malformed := by decide +kernel

/-- V31a: the protocol control word is not tested. -/
theorem test_decode_v31a :
    decodeSlice [0x5A#8, 0x12#8, 0x34#8, 0x02#8, 0xFF#8, 0x00#8, 0x00#8, 0x36#8, 0x27#8] =
      .ok ⟨0x02#8, 0xFF#8, []⟩ := by decide +kernel

/-- V31b to V31h. -/
theorem test_tryDecode_v31b_to_v31h :
    tryDecodeBuffer .candidate [] = .needMoreData ∧ tryDecodeBuffer .candidate [0x00#8, 0x01#8] = .resync 2 ∧
    tryDecodeBuffer .candidate [0x00#8, 0xFF#8, 0x5A#8, 0x00#8, 0x01#8] = .resync 2 ∧
    tryDecodeBuffer .candidate [0x5A#8, 0x00#8, 0x01#8] = .needMoreData ∧
    tryDecodeBuffer .candidate (v21.take 7) = .needMoreData ∧
    tryDecodeBuffer .candidate (v21.take 8) = .needMoreData ∧
    tryDecodeBuffer .candidate (v21 ++ [0x5A#8]) = .decoded ⟨0x02#8, 0xFF#8, []⟩ 9 := by decide +kernel

/-- V31i: both straps. -/
theorem test_tryDecode_v31i :
    tryDecodeBuffer .candidate (v21.dropLast ++ [0x5B#8, 0x11#8]) = .resync 9 ∧
    tryDecodeBuffer .oneByte (v21.dropLast ++ [0x5B#8, 0x11#8]) = .resync 1 := by decide +kernel

/-! StreamReassembler. -/

/-- V32, the example of rule R141. -/
theorem test_feed_v32 :
    shows (exec (.rxFeed ([0x00#8, 0xFF#8] ++ v21 ++ [0x5A#8, 0x00#8])) State.reset) =
      some (0#16, [0x5A#8, 0x00#8], [.events [.validFrame ⟨0x02#8, 0xFF#8, []⟩]]) := by decide +kernel

/-- V37: both straps. -/
theorem test_feed_v37 :
    scan .candidate ([0x5A#8, 0x00#8, 0x01#8, 0x02#8, 0xFF#8, 0x00#8, 0x00#8, 0x89#8, 0x5A#8] ++ v22) =
      ([.corruptFrameDetected, .validFrame ⟨0x02#8, 0x10#8, p22⟩], []) ∧
    scan .oneByte ([0x5A#8, 0x00#8, 0x01#8, 0x02#8, 0xFF#8, 0x00#8, 0x00#8, 0x89#8, 0x5A#8] ++ v22) =
      ([.corruptFrameDetected], 0x5A#8 :: v22) := by decide +kernel

/-- V43: both straps. -/
theorem test_feed_v43 :
    scan .candidate (v24.take 11 ++ v21 ++ v22) = ([.corruptFrameDetected], 0x5A#8 :: v22) ∧
    scan .oneByte (v24.take 11 ++ v21 ++ v22) =
      ([.corruptFrameDetected, .validFrame ⟨0x02#8, 0xFF#8, []⟩, .validFrame ⟨0x02#8, 0x10#8, p22⟩], []) := by decide +kernel

/-- V36: a stray sync byte before STOP; nothing is delivered, ten bytes are held. -/
theorem test_feed_v36 :
    scan .candidate (0x5A#8 :: v21) = ([], 0x5A#8 :: v21) ∧ fsmView (0x5A#8 :: v21) = .body 10 65289 := by decide +kernel

/-- The example of rule R150. -/
theorem test_rxByte :
    shows (exec (.rxByte 0x5A#8) (holding .candidate v21.dropLast)) =
      some (0#16, [], [.events [.validFrame ⟨0x02#8, 0xFF#8, []⟩]]) := by decide +kernel

/-! Payload layer. -/

/-- V52. -/
theorem test_invStart_v52 : shows (exec (.invStart [1, 3] false) State.reset) = some (0#16, [], [.frame
    [0x5A#8, 0x00#8, 0x01#8, 0x02#8, 0x10#8, 0x00#8, 0x05#8, 0x00#8, 0x00#8, 0x00#8, 0x05#8, 0x00#8, 0x28#8,
      0x62#8]]) := by decide +kernel

/-- V55: an antenna id outside 1 to 4. -/
theorem test_invStart_v55 : refusalOf (exec (.invStart [5] false) State.reset) = some .antennaIdOutOfRange := by decide +kernel

/-- V56. -/
theorem test_invStop_v56 : shows (exec .invStop State.reset) = some (0#16, [], [.frame v21]) := by decide +kernel

/-- V57, V60. -/
theorem test_tagParse_v57_v60 :
    parseTag p24 = .report ['A', 'B', 'C', 'D'] 0x01#8 ∧
    parseTag [0x00#8, 0x00#8, 0xEE#8, 0xEE#8, 0x02#8] = .report [] 0x02#8 ∧
    parseTag [0x00#8, 0x01#8, 0xAB#8, 0x00#8, 0x00#8, 0x04#8, 0x99#8, 0x99#8] = .report ['A', 'B'] 0x04#8 := by decide +kernel

/-- V59. -/
theorem test_tagParse_v59 :
    parseTag [0x00#8, 0x0C#8, 0xAB#8] = .parseFailure ∧ parseTag [0x00#8] = .parseFailure ∧
    parseTag [] = .parseFailure ∧ parseTag [0x00#8, 0x02#8, 0xAB#8, 0xCD#8, 0x00#8, 0x00#8] = .parseFailure := by decide +kernel

/-- V44: the 40-byte frame of the example of rule R179. -/
theorem test_epcwBuild_v44 :
    shows (exec (.epcwBuild "AABBCCDD".toList "11223344".toList 2 0#32) State.reset) = some (0#16, [], [.frame
      ([0x5A#8, 0x00#8, 0x01#8, 0x02#8, 0x11#8, 0x00#8, 0x1F#8] ++
        [0x00#8, 0x00#8, 0x00#8, 0x02#8, 0x01#8, 0x00#8, 0x01#8, 0x00#8, 0x06#8, 0x10#8, 0x00#8, 0x11#8, 0x22#8,
          0x33#8, 0x44#8, 0x01#8, 0x00#8, 0x08#8, 0x01#8, 0x00#8, 0x20#8, 0x20#8, 0xAA#8, 0xBB#8, 0xCC#8, 0xDD#8,
          0x02#8, 0x00#8, 0x00#8, 0x00#8, 0x00#8] ++ [0x59#8, 0x7A#8])]) := by decide +kernel

/-- V45: the same payload with BITLEN_SIZE = 2. -/
theorem test_epcwBuild_v45 :
    writeEpcPayload .two ⟨0x02#8, [0x11#8, 0x22#8, 0x33#8, 0x44#8], [0xAA#8, 0xBB#8, 0xCC#8, 0xDD#8], 0#32⟩ =
      [0x00#8, 0x00#8, 0x00#8, 0x02#8, 0x01#8, 0x00#8, 0x01#8, 0x00#8, 0x06#8, 0x10#8, 0x00#8, 0x11#8, 0x22#8, 0x33#8,
        0x44#8, 0x01#8, 0x00#8, 0x09#8, 0x01#8, 0x00#8, 0x20#8, 0x00#8, 0x20#8, 0xAA#8, 0xBB#8, 0xCC#8, 0xDD#8,
        0x02#8, 0x00#8, 0x00#8, 0x00#8, 0x00#8] := by decide +kernel

/-- V47, V49. -/
theorem test_epcwBuild_v47_v49 :
    shows (exec (.epcwBuild "AABB".toList "112233".toList 1 0#32) State.reset) = some (0#16, [], [.invalidEpcLength]) ∧
    refusalOf (exec (.epcwBuild "AAB".toList "11223344".toList 1 0#32) State.reset) = some .oddOldEpcLength ∧
    refusalOf (exec (.epcwBuild "AABB".toList "1122334G".toList 1 0#32) State.reset) = some .notHexDigits ∧
    refusalOf (exec (.epcwBuild "AABB".toList "11223344".toList 5 0#32) State.reset) = some .antennaIdOutOfRange := by
  decide +kernel

/-- V50. -/
theorem test_pcWord_v50 :
    pcWord 6 = 0x3000#16 ∧ pcWord 4 = 0x2000#16 ∧ pcWord 31 = 0xF800#16 ∧ pcWord 32 = 0x0000#16 ∧
    pcWord 33 = 0x0800#16 := by decide +kernel

/-- V61. -/
theorem test_wresParse_v61 :
    parseWrite [0x00#8] = .success ∧ parseWrite [0x03#8] = .invalidParameter ∧
    parseWrite [0x08#8] = .passwordOrLockError ∧ parseWrite [0x10#8] = .tagOutOfRange ∧
    parseWrite [0x42#8] = .unknownError 0x42#8 ∧ parseWrite [0xFF#8, 0x00#8] = .unknownError 0xFF#8 ∧
    parseWrite [] = .parseFailure := by decide +kernel

theorem test_unassigned : refusalOf (exec .unassigned State.reset) = some .unassignedSelectCode := by decide +kernel

/-! FRAME rows. -/

/-- V24 arriving, and its report. -/
theorem test_tagReport :
    shows (exec (.tagReport p24) State.reset) = some (0#16, [],
      [.events [.validFrame ⟨0x02#8, 0x00#8, p24⟩], .classified [.tagReport (.report ['A', 'B', 'C', 'D'] 0x01#8)]]) := by
  decide +kernel

/-- Any frame arriving behind a held fragment that swallows it. -/
theorem test_frameAny_behind_a_fragment :
    shows (exec (.frameAny 0x0001#16 0x02#8 0xFF#8 []) (holding .candidate [0x5A#8])) =
      some (0#16, 0x5A#8 :: v21, [.events []]) := by decide +kernel

/-- V62's TagOutOfRange response, and a command echoed back (rule R188). -/
theorem test_writeEpcRsp :
    shows (exec (.writeEpcRsp [0x10#8]) State.reset) = some (0#16, [],
      [.events [.validFrame ⟨0x02#8, 0x11#8, [0x10#8]⟩], .classified [.writeResponse .tagOutOfRange]]) ∧
    shows (exec (.writeEpcClassify 0x1234#16 [0x00#8, 0x00#8]) State.reset) = some (0#16, [],
      [.events [.validFrame ⟨0x02#8, 0x11#8, [0x00#8, 0x00#8]⟩], .classified [.writeResponse .success]]) := by decide +kernel

theorem test_inbound_classify :
    shows (exec (.tagReportClassify 0x1234#16 [0x00#8]) State.reset) = some (0#16, [],
      [.events [.validFrame ⟨0x02#8, 0x00#8, [0x00#8]⟩], .classified [.tagReport .parseFailure]]) ∧
    shows (exec (.startInventoryClassify 0x0001#16 p22) State.reset) = some (0#16, [],
      [.events [.validFrame ⟨0x02#8, 0x10#8, p22⟩], .classified [.unrecognized ⟨0x02#8, 0x10#8, p22⟩]]) ∧
    shows (exec (.stopInventoryClassify 0x0001#16 []) State.reset) = some (0#16, [],
      [.events [.validFrame ⟨0x02#8, 0xFF#8, []⟩], .classified [.unrecognized ⟨0x02#8, 0xFF#8, []⟩]]) := by decide +kernel

theorem test_outbound_frames :
    shows (exec (.startInventory p22) State.reset) = some (0#16, [], [.sent v22 (.startInventory 0x01#8 true)]) ∧
    shows (exec (.stopInventory []) State.reset) = some (0#16, [], [.sent v21 .stopInventory]) := by decide +kernel

theorem test_writeEpcCmd_layout :
    readWriteEpc .one [0x00#8, 0x00#8, 0x00#8, 0x08#8, 0x01#8, 0x00#8, 0x01#8, 0x00#8, 0x02#8, 0x00#8, 0x00#8, 0x01#8,
      0x00#8, 0x04#8, 0x01#8, 0x00#8, 0x20#8, 0x00#8, 0x02#8, 0x12#8, 0x34#8, 0x56#8, 0x78#8] =
      .writeEpc { antenna := 0x08#8, newEpc := [], oldEpc := [], password := 0x12345678#32 } ∧
    readWriteEpc .one [0x00#8] = .other := by decide +kernel

/-! The step. -/

theorem test_step_runs_a_table_word :
    shows (step (State.reset.withFetchWord 56 0x5A000102FF0000)) = some (0#16, [], [.sent v21 .stopInventory]) ∧
    shows (step (State.reset.withFetchWord 8 0x4)) = some (0#16, [], [.crc 0#16]) ∧
    shows (step State.reset) = some (0#16, [], []) := by decide +kernel

/-! Witnesses: for every statement with hypotheses, a state and operands that meet them, clause by clause, at boundary
values. -/

/-- The next state of an outcome. -/
def nextOf : Outcome → Option State
  | .next t => some t
  | .fault _ => none
  | .refused _ => none

theorem eq_next {o : Outcome} {t : State} (h : nextOf o = some t) : o = .next t := by
  cases o with
  | next u => simp only [nextOf, Option.some.injEq] at h; rw [h]
  | fault f => cases f
  | refused r => cases h

theorem length_replicate_le {n m : Nat} (h : n ≤ m) : (List.replicate n (0#8 : Byte)).length ≤ m := by
  rw [List.length_replicate]; exact h

/-- An unbounded buffer has room for everything. -/
theorem room_unbounded {s : State} (h : s.straps.bufCap = none) (n : Nat) : s.roomFor n := by
  intro cap hc; rw [h] at hc; cases hc

/-- The reset state with the smallest finite BUF_CAP of rule R33. -/
def capped : State := { State.reset with straps := { Straps.default with bufCap := some 65544 } }

/-- An error of exactly 16 bits, over the protocol control word. -/
def burst : List Byte := [0x00#8, 0xFF#8, 0xFF#8, 0x00#8, 0x00#8, 0x00#8, 0x00#8, 0x00#8, 0x00#8]

theorem witness_BurstErrorsNeverDecode :
    ([] : List Byte).length ≤ 65535 ∧ burst.length = 9 + ([] : List Byte).length ∧ burst16 burst := by
  refine ⟨by decide, by decide, ⟨8, by decide⟩, 8, ?_⟩
  have h : ∀ j, j < 72 → wireBit burst j = true → 8 ≤ j ∧ j < 8 + 16 := by decide +kernel
  intro j hj
  by_cases hlt : j < 72
  · exact h j hlt hj
  · have hn : burst[j / 8]? = none := List.getElem?_eq_none (by simp only [burst, List.length_cons, List.length_nil]; omega)
    simp [wireBit, memRead1, hn] at hj

theorem witness_CrcLinearAndResidueZero : [0x12#8, 0x34#8].length = [0x56#8, 0x78#8].length := by decide

theorem witness_CrcRegisterIsScratch :
    (Instr.rxByte 0x00#8).readsCrc = false ∧ exec (.rxByte 0x00#8) State.reset = .next (State.reset.emit (.events [])) ∧
    Instr.unassigned.readsCrc = false ∧ exec .unassigned State.reset = .refused .unassignedSelectCode :=
  ⟨rfl, eq_next (by decide +kernel), rfl, rfl⟩

theorem witness_EncodeLaysOutTheFrame : (List.replicate 65535 (0#8 : Byte)).length ≤ 65535 :=
  length_replicate_le (Nat.le_refl _)

theorem witness_NoPayloadIsCutShort :
    65535 < (List.replicate 65536 (0#8 : Byte)).length ∧
    exec (.frameEncode 0x02#8 0xFF#8 []) State.reset = .next (State.reset.emit (.frame v21)) ∧
    Instr.stopInventory [] ∈ [Instr.startInventory [], .writeEpcCmd [], .stopInventory []] ∧
    exec (.stopInventory []) State.reset = .next (State.reset.emit (.sent v21 .stopInventory)) := by
  refine ⟨by rw [List.length_replicate]; decide, eq_next (by decide +kernel), by decide, eq_next (by decide +kernel)⟩

theorem witness_EncodedFrameProperties :
    (List.replicate 65535 (0#8 : Byte)).length ≤ 65535 ∧ ([] : List Byte).length ≤ 65535 ∧
    exec (.frameEncode 0x02#8 0xFF#8 []) State.reset = .next (State.reset.emit (.frame v21)) :=
  ⟨length_replicate_le (Nat.le_refl _), by decide, eq_next (by decide +kernel)⟩

theorem witness_MalformedOnlyOutsideTheScan : v21.head? = some sync ∧ declaredTotal v21 ≤ v21.length := by
  decide +kernel

theorem witness_TryDecodeInTestOrder :
    ([0x00#8] ≠ [] ∧ 0x5A#8 ∉ [0x00#8]) ∧ [0x88#8, 0x5A#8, 0x00#8, 0x00#8, 0x00#8].length < 6 ∧
    [0x88#8].length < 2 + ((0x00#8).toNat * 256 + (0x00#8).toNat) ∧
    ([] : List Byte).length < 2 + ((0xFF#8).toNat * 256 + (0xFF#8).toNat) ∧
    (List.replicate 65535 (0#8 : Byte)).length ≤ 65535 :=
  ⟨by decide, by decide, by decide, by decide, length_replicate_le (Nat.le_refl _)⟩

theorem witness_EncodeDecodeRoundTrip :
    (List.replicate 65535 (0#8 : Byte)).length ≤ 65535 ∧
    exec (.frameDecode v21) State.reset = .next (State.reset.emit (.decode (.ok ⟨0x02#8, 0xFF#8, []⟩))) :=
  ⟨length_replicate_le (Nat.le_refl _), eq_next (by decide +kernel)⟩

theorem witness_FeedFollowsTheSteps_capacity :
    ¬ capped.roomFor (List.replicate 65545 (0#8 : Byte)).length ∧
    capped.roomFor (List.replicate 65544 (0#8 : Byte)).length := by
  rw [List.length_replicate, List.length_replicate]
  constructor
  · intro h
    have := h 65544 rfl
    simp [capped, State.reset] at this
  · intro cap hc
    cases hc
    decide

theorem witness_FeedFollowsTheSteps_buffers :
    0x5A#8 ∉ [0x00#8, 0x01#8] ∧ [0x00#8, 0x01#8, 0x02#8, 0xFF#8, 0x00#8].length < 6 ∧
    (0x5A#8 :: v21.dropLast.tail).length < declaredTotal (0x5A#8 :: v21.dropLast.tail) ∧
    v21 = [] ++ (candidate 0x0001#16 0x02#8 0xFF#8 [] 0x885A#16 ++ []) ∧
    0x5A#8 ∉ ([] : List Byte) ∧ ([] : List Byte).length ≤ 65535 := by decide +kernel

/-- One byte under ONE_BYTE that completes a failing candidate with a STOP frame inside it. -/
theorem test_rxByte_several_events :
    shows (exec (.rxByte 0x00#8) (holding .oneByte
      ([0x5A#8, 0x00#8, 0x01#8, 0x02#8, 0x00#8, 0x00#8, 0x09#8] ++ v21 ++ [0x00#8]))) =
      some (0#16, [], [.events [.corruptFrameDetected, .validFrame ⟨0x02#8, 0xFF#8, []⟩]]) := by decide +kernel

theorem witness_RxByteIsFeedOfOneByte :
    State.reset.roomFor 1 ∧ State.reset.straps.crcFailDrop = .candidate ∧ atRest State.reset.buf = true :=
  ⟨room_unbounded rfl 1, rfl, rfl⟩

theorem witness_BufferIsAtRestAfterFeed : State.reset.roomFor v22.length := room_unbounded rfl _

theorem witness_FeedEndsAndEventsAreBounded :
    scanPass .candidate v21 = .resume (.validFrame ⟨0x02#8, 0xFF#8, []⟩) [] ∧ v21.length < 10 ∧
    State.reset.roomFor v21.length := ⟨by decide +kernel, by decide, room_unbounded rfl _⟩

theorem witness_FeedingNothingChangesNothing : (holding .candidate [0x5A#8, 0x00#8]).Inv := ⟨rfl, by decide⟩

theorem witness_FsmTransitions_hunt :
    State.reset.roomFor 1 ∧ atRest State.reset.buf = true ∧ fsmView State.reset.buf = .hunt ∧ 0x00#8 ≠ 0x5A#8 :=
  ⟨room_unbounded rfl 1, rfl, rfl, by decide⟩

theorem witness_FsmTransitions_header :
    (holding .candidate [0x5A#8]).roomFor 1 ∧ atRest [0x5A#8] = true ∧ fsmView [0x5A#8] = .header 1 ∧
    atRest (v21.take 6) = true ∧ fsmView (v21.take 6) = .header 6 :=
  ⟨room_unbounded rfl 1, by decide, by decide, by decide, by decide⟩

theorem witness_FsmTransitions_body :
    (holding .oneByte v21.dropLast).roomFor 1 ∧ atRest (v21.take 7) = true ∧ fsmView (v21.take 7) = .body 7 9 ∧
    atRest v21.dropLast = true ∧ fsmView v21.dropLast = .body 8 9 ∧
    decodeSlice (v21.dropLast ++ [0x5A#8]) = .ok ⟨0x02#8, 0xFF#8, []⟩ ∧
    ∀ fr, decodeSlice (v21.dropLast ++ [0x5B#8]) ≠ .ok fr := by
  refine ⟨room_unbounded rfl 1, by decide, by decide, by decide, by decide, by decide +kernel, ?_⟩
  intro fr h
  have h' : decodeSlice (v21.dropLast ++ [0x5B#8]) = .crcMismatch := by decide +kernel
  rw [h'] at h
  cases h

/-- V40: V22 cut inside its length field, with an empty feed between. -/
theorem witness_SplitInvariance :
    exec (.rxFeed [v22.take 6, [], v22.drop 6].flatten) State.reset =
      .next (State.reset.emit (.events [.validFrame ⟨0x02#8, 0x10#8, p22⟩])) ∧ atRest State.reset.buf = true :=
  ⟨eq_next (by decide +kernel), rfl⟩

theorem witness_FeedIsTryDecodeLoop : State.reset.roomFor v21.length ∧ (State.reset.buf ++ v21).length < 10 :=
  ⟨room_unbounded rfl _, by decide⟩

/-- V35: V22 with its last byte inverted, under either strap. -/
theorem witness_GarbageAndDamageBeforeFrame :
    (holding .oneByte []).buf = [] ∧ (holding .oneByte []).straps.bufCap = none ∧ p22.length ≤ 65535 ∧
    0x5A#8 ∉ [0x13#8, 0x37#8] ∧ candidate 0x0001#16 0x02#8 0x10#8 p22 0xF478#16 ≠ v22 ∧
    State.reset.straps.crcFailDrop = .candidate ∧
    0x5A#8 ∉ (candidate 0x0001#16 0x02#8 0x10#8 p22 0xF478#16).drop 1 := by decide +kernel

theorem witness_EveryTripleIsDelivered :
    (List.replicate 65535 (0#8 : Byte)).length ≤ 65535 ∧ State.reset.buf = [] ∧
    capped.roomFor (9 + (List.replicate 65535 (0#8 : Byte)).length) := by
  refine ⟨length_replicate_le (Nat.le_refl _), rfl, ?_⟩
  rw [List.length_replicate]
  intro cap hc
  cases hc
  decide

theorem witness_ErrorKindInTestOrder :
    [0x00#8] ≠ [] ∧ 0x5A#8 ∉ [0x00#8] ∧ [0x00#8, 0x01#8, 0x02#8, 0xFF#8, 0x00#8].length < 6 ∧
    (0x5A#8 :: v21.dropLast.tail).length < declaredTotal (0x5A#8 :: v21.dropLast.tail) ∧
    ([] : List Byte).length ≤ 65535 := by decide +kernel

theorem witness_ErrorKindsHaveTheirEffects :
    State.reset.roomFor v21.length ∧ bufferCondition [0x00#8] = some .frameSyncLost ∧
    bufferCondition [0x00#8, 0x5A#8] = some .framePartial ∧
    bufferCondition (v21.dropLast ++ [0x5B#8]) = some .frameCrcMismatch ∧ bufferCondition v21 = none ∧ v21 ≠ [] :=
  ⟨room_unbounded rfl _, by decide +kernel⟩

theorem witness_InvStartBuildsTheMask : ∀ id ∈ [1, 4], 1 ≤ id ∧ id ≤ 4 := by decide

theorem witness_InvStartAtTheEdges :
    (∃ id ∈ [0], id < 1 ∨ 4 < id) ∧ ∃ id ∈ [2, 5], id < 1 ∨ 4 < id := by decide

theorem witness_TagParseOutcome :
    [0xAB#8].length = (0x00#8).toNat * 256 + (0x01#8).toNat ∧ [0x00#8].length < 2 ∧
    [0x00#8, 0x01#8, 0xAB#8, 0x00#8, 0x00#8].length <
      5 + (([0x00#8, 0x01#8, 0xAB#8, 0x00#8, 0x00#8].getD 0 0#8).toNat * 256 +
        ([0x00#8, 0x01#8, 0xAB#8, 0x00#8, 0x00#8].getD 1 0#8).toNat) := by decide

/-- An old EPC of 31 bytes, the longest BITLEN_SIZE = 1 has room for (rule R182). -/
theorem witness_EpcwBuildLaysOutThePayload :
    let old := List.replicate 62 'f'
    let new := ['1', '1', '2', 'A']
    (∀ ch ∈ old ++ new, isHexDigit ch) ∧ old.length % 2 = 0 ∧ 1 ≤ 4 ∧ 4 ≤ 4 ∧ new.length % 4 = 0 ∧
    old.length / 2 * 8 < 256 ^ State.reset.straps.bitlenSize.bytes ∧
    22 + new.length / 2 + State.reset.straps.bitlenSize.bytes + old.length / 2 ≤ 65535 :=
  ⟨hexDigits_iff.mp (by decide +kernel), by decide +kernel⟩

theorem witness_EpcwBuildInvalidEpcLength :
    (∀ ch ∈ ['A', 'A'] ++ ['1', '1', '2'], isHexDigit ch) ∧ ['A', 'A'].length % 2 = 0 ∧ 1 ≤ 1 ∧ 1 ≤ 4 ∧
    ['1', '1', '2'].length % 4 ≠ 0 := ⟨hexDigits_iff.mp (by decide +kernel), by decide⟩

theorem witness_EpcwBuildRefusals :
    (∃ ch ∈ ['A', 'A'] ++ ['G'], ¬ isHexDigit ch) ∧ (∀ ch ∈ ['A'] ++ ['1'], isHexDigit ch) ∧ ['A'].length % 2 = 1 ∧
    ['A', 'A'].length % 2 = 0 ∧ (0 < 1 ∨ 4 < 0) ∧ (5 < 1 ∨ 4 < 5) :=
  ⟨⟨'G', by simp, fun h => absurd (hexValue_isSome.mpr h) (by decide)⟩, hexDigits_iff.mp (by decide +kernel), by decide⟩

theorem witness_HexReadsBackWhatItWrites :
    (∀ c ∈ ['0', '9', 'a', 'f', 'A', 'F'], isHexDigit c) ∧ ['0', '9', 'a', 'f', 'A', 'F'].length % 2 = 0 :=
  ⟨hexDigits_iff.mp (by decide +kernel), by decide⟩

theorem witness_InboundFramesAreFeeds :
    p24.length ≤ 65535 ∧ State.reset.roomFor (9 + p24.length) ∧ pcw = 0x0001#16 ∧ catInventory = 0x02#8 ∧
    midTagReport = 0x00#8 ∧ midStart = 0x10#8 ∧ midWriteEpc = 0x11#8 ∧ midStop = 0xFF#8 :=
  ⟨by decide, room_unbounded rfl _, by decide⟩

theorem witness_ConsumerClassifiesByPair :
    p24.length ≤ 65535 ∧ State.reset.buf = [] ∧ State.reset.roomFor (9 + p24.length) ∧
    (⟨0x03#8, 0x00#8, []⟩ : Frame).category ≠ 0x02#8 ∧
    (⟨0x02#8, 0x10#8, []⟩ : Frame).messageId ≠ 0x00#8 ∧ (⟨0x02#8, 0x10#8, []⟩ : Frame).messageId ≠ 0x11#8 :=
  ⟨by decide, rfl, room_unbounded rfl _, by decide, by decide, by decide⟩

theorem witness_TagReportArrivesAsReport :
    (List.replicate 65530 (0#8 : Byte)).length ≤ 65530 ∧ State.reset.buf = [] ∧
    State.reset.roomFor (14 + (List.replicate 65530 (0#8 : Byte)).length) :=
  ⟨length_replicate_le (Nat.le_refl _), rfl, room_unbounded rfl _⟩

theorem witness_OutboundFramesAreSent :
    p22.length ≤ 65535 ∧ (List.replicate 65535 (0#8 : Byte)).length ≤ 65535 ∧
    readStart p22 = .startInventory 0x01#8 true ∧ readStop [] = .stopInventory :=
  ⟨by decide, length_replicate_le (Nat.le_refl _), by decide +kernel, rfl⟩

/-- V48's frame, and V22. -/
theorem witness_BuildersMatchOutboundRows :
    exec (.epcwBuild [] [] 4 0#32) State.reset = .next (State.reset.emit (.frame
      ([0x5A#8, 0x00#8, 0x01#8, 0x02#8, 0x11#8, 0x00#8, 0x17#8] ++
        [0x00#8, 0x00#8, 0x00#8, 0x08#8, 0x01#8, 0x00#8, 0x01#8, 0x00#8, 0x02#8, 0x00#8, 0x00#8, 0x01#8, 0x00#8,
          0x04#8, 0x01#8, 0x00#8, 0x20#8, 0x00#8, 0x02#8, 0x00#8, 0x00#8, 0x00#8, 0x00#8] ++ [0x51#8, 0xB2#8]))) ∧
    exec (.invStart [1] true) State.reset = .next (State.reset.emit (.frame v22)) :=
  ⟨eq_next (by decide +kernel), eq_next (by decide +kernel)⟩

theorem witness_OtherOperationsKeepTheBuffer :
    Instr.crcBit.touchesBuf = false ∧ exec .crcBit (holding .candidate [0x5A#8]) = .next (holding .candidate [0x5A#8]) :=
  ⟨rfl, eq_next (by decide +kernel)⟩

theorem witness_OtherOperationsKeepTheCrc :
    Instr.invStop.touchesCrc = false ∧ exec .invStop State.reset = .next (State.reset.emit (.frame v21)) :=
  ⟨rfl, eq_next (by decide +kernel)⟩

theorem witness_StrapsNeverChange :
    exec .invStop State.reset = .next (State.reset.emit (.frame v21)) ∧
    step (State.reset.setRequests [0x0B#8]) = .next (State.reset.emit (.frame v21)) :=
  ⟨eq_next (by decide +kernel), eq_next (by decide +kernel)⟩

theorem witness_ReturnedValuesStand :
    exec .invStop State.reset = .next (State.reset.emit (.frame v21)) ∧
    step (State.reset.setRequests [0x0B#8]) = .next (State.reset.emit (.frame v21)) := witness_StrapsNeverChange

theorem witness_TransmitIgnoresReceive :
    Instr.invStop.touchesBuf = false ∧ exec .invStop State.reset = .next (State.reset.emit (.frame v21)) ∧
    Instr.unassigned.touchesBuf = false ∧ exec .unassigned State.reset = .refused .unassignedSelectCode :=
  ⟨rfl, eq_next (by decide +kernel), rfl, rfl⟩

theorem witness_PastAndFutureHaveNoInfluence :
    exec .invStop State.reset = .next (State.reset.emit (.frame v21)) ∧
    (State.reset.emit (.frame v21)).results = State.reset.results ++ [.frame v21] ∧
    exec .unassigned State.reset = .refused .unassignedSelectCode := ⟨eq_next (by decide +kernel), rfl, rfl⟩

theorem witness_RefusalsAreExactlyTheSpecs :
    Instr.unassigned.refusedBySpec State.reset ∧ ¬ Instr.reset.refusedBySpec State.reset := ⟨trivial, id⟩

/-- A step that changes the buffer, from a state that meets the invariant. -/
theorem witness_StepKeepsInvariant :
    ({ holding .candidate [0x5A#8] with requests := [0x09#8, 0x00#8] } : State).Inv ∧
    step { holding .candidate [0x5A#8] with requests := [0x09#8, 0x00#8] } =
      .next ((holding .candidate [0x5A#8, 0x00#8]).emit (.events [])) :=
  ⟨⟨rfl, by decide⟩, eq_next (by decide +kernel)⟩

theorem witness_StepRunsTheDecodedOperation : decode [0x02#8, 0x0B#8] = .ok (.crcBit, [0x0B#8]) := rfl

theorem witness_IdleWithoutRequest :
    State.reset.requests = [] ∧ (State.reset.setRequests [0x1A#8]).requests ≠ [] ∧
    decode (State.reset.setRequests [0x1A#8]).requests = .error (.unknownSelect 0x1A#8) := ⟨rfl, by decide, rfl⟩

theorem witness_DecodeOfEncode :
    (Instr.invStart [255, 0] true).wellFormed = true ∧ (Instr.epcwBuild [Char.ofNat 255] ['G'] 0 0#32).wellFormed = true ∧
    (Instr.frameAny 0xFFFF#16 0xFF#8 0xFF#8 (List.replicate 65535 0#8)).wellFormed = true := by
  refine ⟨by decide +kernel, by decide +kernel, ?_⟩
  rw [Instr.wellFormed, framePayloadFits, List.length_replicate]
  decide

theorem witness_EncodeOfDecode :
    decode [0x02#8, 0x0B#8] = .ok (.crcBit, [0x0B#8]) ∧ [0x02#8, 0x0B#8].head? ≠ some 0x5A#8 := ⟨rfl, by decide⟩

theorem witness_BareHeaderByPattern : [0x09#8].length = (0x00#8).toNat * 256 + (0x01#8).toNat := by decide

end Sys2Proof.Tests
end

section
/-! PROOF. The buffer at rest in plain reads, 10_state.md rule R34. -/

namespace Sys2Proof.Machine

/-- Rules R12, R74: the declared total in the two bytes of the length field, where the header is whole. -/
theorem declaredTotal_of_header {b : List Byte} (h : hdrLen ≤ b.length) :
    ∃ hi lo, b[5]? = some hi ∧ b[6]? = some lo ∧ declaredTotal b = 9 + (hi.toNat * 256 + lo.toNat) := by
  rw [hdrLen] at h
  have h5 : b[5]? = some b[5] := List.getElem?_eq_getElem _
  have h6 : b[6]? = some b[6] := List.getElem?_eq_getElem _
  refine ⟨b[5], b[6], h5, h6, ?_⟩
  simp only [declaredTotal, memRead2, memRead1, List.getD_eq_getElem?_getD, h5, h6, Option.getD_some, be16_toNat,
    overhead]

/-- Rule R34's three forms of a buffer at rest. -/
theorem atRest_reads {b : List Byte} (h : atRest b = true) :
    b = [] ∨ (b[0]? = some 0x5A#8 ∧ (b.length < 7 ∨
      ∃ hi lo, b[5]? = some hi ∧ b[6]? = some lo ∧ b.length < 9 + (hi.toNat * 256 + lo.toNat))) := by
  obtain hnil | ⟨t, rfl, hwait⟩ := atRest_cases h
  · exact .inl hnil
  · refine .inr ⟨rfl, ?_⟩
    by_cases hshort : (sync :: t).length < 7
    · exact .inl hshort
    · have htotal := hwait.resolve_left hshort
      obtain ⟨hi, lo, h5, h6, hdecl⟩ := declaredTotal_of_header (Nat.le_of_not_lt hshort)
      exact .inr ⟨hi, lo, h5, h6, hdecl ▸ htotal⟩

/-- Settles O21: a scan ends at rest (`scan_ends_atRest`), and a buffer at rest has rule R34's forms and length. -/
theorem bufferIsAtRestAfterFeed : Obligations.BufferIsAtRestAfterFeed := by
  refine ⟨fun s => ⟨_, rfl, rfl⟩, fun new s hroom => ⟨_, feed_room hroom, ?_⟩⟩
  have hrest := scan_ends_atRest s.straps.crcFailDrop (s.buf ++ new)
  exact ⟨atRest_reads hrest, atRest_length hrest⟩

end Sys2Proof.Machine
end

section
/-! PROOF. The frame laid out byte by byte, 41_frame_codec.md rules R71, R73. -/

namespace Sys2Proof.Machine

/-- Rule R12: the two bytes of a 2-byte field in numbers. -/
theorem bytes16_toNat (v : Word16) :
    bytes16 v = [BitVec.ofNat 8 (v.toNat / 256), BitVec.ofNat 8 (v.toNat % 256)] := by
  rw [bytes16, ofNat_div_hi8, ofNat_mod_lo8]

/-- Rules R71, R73: what the CRC covers, written out with PCW's two bytes and the length field's two. -/
theorem frameBody_pcw {c m : Byte} {p : List Byte} (hp : p.length ≤ 65535) :
    frameBody pcw c m p =
      [0x00#8, 0x01#8, c, m, BitVec.ofNat 8 (p.length / 256), BitVec.ofNat 8 (p.length % 256)] ++ p := by
  rw [frameBody, lenField_eq hp, show bytes16 pcw = [0x00#8, 0x01#8] by decide]
  rfl

/-- Settles O12: COMPUTE leaves `crcOf body` in `crc`, and ENCODE returns `wireFrame`, whose body is `frameBody_pcw` and
whose last two bytes are `bytes16_toNat` of that CRC. -/
theorem encodeLaysOutTheFrame : Obligations.EncodeLaysOutTheFrame := by
  intro c m p s hp body
  have hbody : frameBody pcw c m p = body := frameBody_pcw hp
  have hframe : wireFrame pcw c m p = [0x5A#8] ++ body ++
      [BitVec.ofNat 8 ((crcOf body).toNat / 256), BitVec.ofNat 8 ((crcOf body).toNat % 256)] := by
    rw [wireFrame, hbody, bytes16_toNat]
  refine ⟨(s.setCrc (crcOf body)).emit (.crc (crcOf body)), rfl, ?_⟩
  rw [State.emit_crc, State.setCrc_crc, ← hframe]
  exact returnFrame_fits hp

end Sys2Proof.Machine
end

section
/-! PROOF. The CRC generator's operations, 40_crc16.md rules R101 to R104. -/

namespace Sys2Proof.Machine

/-! CRC16.CLEAR and CRC16.BIT. -/

/-- Settles O1: CLEAR sets the register to CRC_INIT, which is zero. -/
theorem crcClearWritesZero : Obligations.CrcClearWritesZero := fun _ => rfl

/-- Bit 15 in numbers: it is set from 2^15 on. -/
theorem getLsbD_fifteen (c : Word16) : c.getLsbD 15 = decide (32768 ≤ c.toNat) :=
  c.msb_eq_decide

/-- A shift left by one in numbers. -/
theorem shiftLeft_one_eq_ofNat (c : Word16) : c <<< 1 = BitVec.ofNat 16 (2 * c.toNat) := by
  apply BitVec.eq_of_toNat_eq
  rw [BitVec.toNat_shiftLeft, BitVec.toNat_ofNat, Nat.shiftLeft_eq]
  omega

/-- Rule R102 in numbers. -/
theorem crcStep_eq_ofNat (c : Word16) :
    crcStep c = if 32768 ≤ c.toNat then BitVec.ofNat 16 (2 * c.toNat % 65536) ^^^ 0x1021#16
      else BitVec.ofNat 16 (2 * c.toNat) := by
  have hwrap : BitVec.ofNat 16 (2 * c.toNat % 65536) = BitVec.ofNat 16 (2 * c.toNat) :=
    BitVec.eq_of_toNat_eq (by simp)
  simp only [crcStep, getLsbD_fifteen, shiftLeft_one_eq_ofNat, hwrap, decide_eq_true_eq, poly]

/-- Settles O2: BIT replaces the register by `crcStep` of it, in numbers. -/
theorem crcBitShiftsAndXors : Obligations.CrcBitShiftsAndXors :=
  fun s => congrArg (fun v => Host.Outcome.next (s.setCrc v)) (crcStep_eq_ofNat s.crc)

/-! Runs of CRC16.BIT and of CRC16.BYTE. -/

theorem runOps_crcBits (n : Nat) (s : State) : runOps (crcBits n) s = .next (s.setCrc (crcSteps n s.crc)) := by
  induction n generalizing s with
  | zero => rfl
  | succ n ih => exact ih (s.setCrc (crcStep s.crc))

theorem runOps_crcBytes (bytes : List Byte) (s : State) :
    runOps (bytes.map .crcByte) s = .next (s.setCrc (bytes.foldl crcAdd s.crc)) := by
  induction bytes generalizing s with
  | nil => rfl
  | cons b rest ih => exact ih (s.setCrc (crcAdd s.crc b))

/-- A byte in bits 15 to 8, in numbers. -/
theorem ofNat_mul_256 (b : Byte) : BitVec.ofNat 16 (b.toNat * 256) = b.setWidth 16 <<< 8 := by
  apply BitVec.eq_of_toNat_eq
  rw [BitVec.toNat_shiftLeft, BitVec.toNat_ofNat, BitVec.toNat_setWidth, Nat.shiftLeft_eq]
  omega

/-- Settles O3: eight BIT operations are `crcSteps 8`, by `runOps_crcBits`. -/
theorem crcByteIsXorThenEightBits : Obligations.CrcByteIsXorThenEightBits := by
  intro b s
  rw [ofNat_mul_256]
  exact ⟨_, runOps_crcBits 8 _, rfl⟩

/-- Settles O4: the BYTE operations fold `crcAdd` over the bytes, from the register CLEAR leaves. -/
theorem crcComputeIsClearThenBytes : Obligations.CrcComputeIsClearThenBytes :=
  fun bytes s => ⟨_, runOps_crcBytes bytes (s.setCrc crcInit), rfl⟩

end Sys2Proof.Machine
end

section
/-! PROOF. The CRC as a polynomial remainder over GF(2), 40_crc16.md rule R108. Congruence modulo the generator is
equality of classes in `AdjoinRoot gfGenerator`. -/

namespace Sys2Proof.Machine

open Polynomial

/-! The register as a polynomial. -/

theorem coeff_gfPoly (v : Word16) (i : Nat) : (gfPoly v).coeff i = if v.getLsbD i then 1 else 0 := by
  have hterm : ∀ j, (if v.getLsbD j then X ^ j else 0 : (ZMod 2)[X]).coeff i =
      if i = j then (if v.getLsbD j then 1 else 0) else 0 := by
    intro j
    split <;> simp [coeff_X_pow]
  simp only [gfPoly, finsetSum_coeff, hterm, Finset.sum_ite_eq, Finset.mem_range]
  by_cases hi : i < 16
  · rw [if_pos hi]
  · rw [if_neg hi, BitVec.getLsbD_of_ge _ _ (Nat.le_of_not_lt hi), if_neg Bool.false_ne_true]

@[simp] theorem gfPoly_zero : gfPoly 0#16 = 0 := by
  ext i
  simp [coeff_gfPoly]

theorem gfPoly_twoPow {k : Nat} (hk : k < 16) : gfPoly (BitVec.twoPow 16 k) = X ^ k := by
  ext i
  rw [coeff_gfPoly, coeff_X_pow, BitVec.getLsbD_twoPow]
  simp [hk, eq_comm]

theorem gfPoly_one : gfPoly 1#16 = 1 := gfPoly_twoPow (k := 0) (by decide)

theorem gfPoly_xor (a b : Word16) : gfPoly (a ^^^ b) = gfPoly a + gfPoly b := by
  ext i
  rw [coeff_add, coeff_gfPoly, coeff_gfPoly, coeff_gfPoly, BitVec.getLsbD_xor]
  cases a.getLsbD i <;> cases b.getLsbD i <;> decide

theorem degree_gfPoly_lt (v : Word16) : (gfPoly v).degree < (16 : ℕ) := by
  rw [degree_lt_iff_coeff_zero]
  intro i hi
  rw [coeff_gfPoly, BitVec.getLsbD_of_ge v i hi, if_neg Bool.false_ne_true]

/-- A shift by `k` multiplies by x^k; the bits shifted out at the top stay behind as a multiple of x^16. -/
theorem X_pow_mul_gfPoly {k : Nat} (hk : k ≤ 16) (v : Word16) :
    X ^ k * gfPoly v = gfPoly (v <<< k) + X ^ 16 * gfPoly (v >>> (16 - k)) := by
  ext i
  rw [coeff_add, coeff_X_pow_mul', coeff_X_pow_mul', coeff_gfPoly, coeff_gfPoly, coeff_gfPoly,
    BitVec.getLsbD_shiftLeft, BitVec.getLsbD_ushiftRight]
  by_cases hlow : i < 16
  · by_cases hki : k ≤ i
    · simp [hlow, hki]
    · simp [hlow, hki, Nat.lt_of_not_le hki]
  · simp [hlow, show k ≤ i by omega, show 16 ≤ i by omega, show 16 - k + (i - 16) = i - k by omega]

/-- A shift right by 15 leaves bit 15 alone. -/
theorem ushiftRight_fifteen (c : Word16) : c >>> 15 = if c.getLsbD 15 then 1#16 else 0#16 := by
  ext i hi
  rw [BitVec.getElem_ushiftRight]
  by_cases h0 : i = 0
  · subst h0
    cases c.getLsbD 15 <;> simp
  · rw [BitVec.getLsbD_of_ge c _ (by omega)]
    split <;> simp [h0]

/-! The generator. -/

theorem gfGenerator_eq : gfGenerator = X ^ 16 + gfPoly poly := by
  have hpoly : poly = BitVec.twoPow 16 12 ^^^ BitVec.twoPow 16 5 ^^^ BitVec.twoPow 16 0 := by decide
  rw [hpoly, gfPoly_xor, gfPoly_xor, gfPoly_twoPow (by decide), gfPoly_twoPow (by decide), gfPoly_twoPow (by decide),
    gfGenerator, pow_zero, ← add_assoc, ← add_assoc]

theorem monic_gfGenerator : gfGenerator.Monic := by
  rw [gfGenerator_eq]
  exact monic_X_pow_add (degree_gfPoly_lt poly)

theorem degree_gfGenerator : gfGenerator.degree = (16 : ℕ) := by
  have hlt : (gfPoly poly).degree < (X ^ 16 : (ZMod 2)[X]).degree := by
    rw [degree_X_pow]
    exact degree_gfPoly_lt poly
  rw [gfGenerator_eq, degree_add_eq_left_of_degree_lt hlt, degree_X_pow]

/-- The class of a polynomial over GF(2) modulo the generator. -/
noncomputable abbrev gfClass : (ZMod 2)[X] →+* AdjoinRoot gfGenerator := AdjoinRoot.mk gfGenerator

/-- A register value congruent to a polynomial is that polynomial's remainder. -/
theorem gfPoly_eq_modByMonic {v : Word16} {p : (ZMod 2)[X]} (h : gfClass p = gfClass (gfPoly v)) :
    gfPoly v = p %ₘ gfGenerator := by
  rw [modByMonic_eq_of_dvd_sub monic_gfGenerator (AdjoinRoot.mk_eq_mk.mp h), eq_comm,
    modByMonic_eq_self_iff monic_gfGenerator, degree_gfGenerator]
  exact degree_gfPoly_lt v

/-- Modulo the generator, x^16 is what 0x1021 stands for. -/
theorem gfClass_X_pow_sixteen : gfClass (X ^ 16) = gfClass (gfPoly poly) := by
  rw [AdjoinRoot.mk_eq_mk, CharTwo.sub_eq_add, ← gfGenerator_eq]

/-! The CRC operations, modulo the generator. -/

/-- Rule R102: one step multiplies by x. -/
theorem gfClass_crcStep (c : Word16) : gfClass (X * gfPoly c) = gfClass (gfPoly (crcStep c)) := by
  have hshift : X * gfPoly c = gfPoly (c <<< 1) + X ^ 16 * gfPoly (c >>> 15) := by
    simpa using X_pow_mul_gfPoly (k := 1) (by decide) c
  rw [hshift, map_add, map_mul, gfClass_X_pow_sixteen, ushiftRight_fifteen, crcStep]
  cases c.getLsbD 15
  · simp
  · simp [gfPoly_xor, gfPoly_one]

theorem gfClass_crcSteps (n : Nat) (c : Word16) :
    gfClass (X ^ n * gfPoly c) = gfClass (gfPoly (crcSteps n c)) := by
  induction n generalizing c with
  | zero => simp [crcSteps]
  | succ n ih => rw [crcSteps, ← ih, pow_succ, mul_assoc, map_mul, gfClass_crcStep, ← map_mul]

/-- A byte in bits 15 to 8 is the byte's polynomial times x^8: nothing is shifted out. -/
theorem gfPoly_byte_high (b : Byte) : gfPoly (b.setWidth 16 <<< 8) = X ^ 8 * gfPoly (b.setWidth 16) := by
  have hout : b.setWidth 16 >>> 8 = 0#16 := by
    ext i hi
    simp
  rw [X_pow_mul_gfPoly (by decide), hout, gfPoly_zero, mul_zero, add_zero]

/-- Rule R103: a register congruent to `q` times x^16 is carried by a byte to the register for `q` with that byte
appended. -/
theorem gfClass_crcAdd {c : Word16} {q : (ZMod 2)[X]} (h : gfClass (q * X ^ 16) = gfClass (gfPoly c)) (b : Byte) :
    gfClass ((q * X ^ 8 + gfPoly (b.setWidth 16)) * X ^ 16) = gfClass (gfPoly (crcAdd c b)) := by
  have hfactor : (q * X ^ 8 + gfPoly (b.setWidth 16)) * X ^ 16 =
      X ^ 8 * (q * X ^ 16 + gfPoly (b.setWidth 16 <<< 8)) := by
    rw [gfPoly_byte_high]
    ring
  have hxor : gfClass (q * X ^ 16 + gfPoly (b.setWidth 16 <<< 8)) =
      gfClass (gfPoly (c ^^^ (b.setWidth 16 <<< 8))) := by rw [gfPoly_xor, map_add, map_add, h]
  rw [hfactor, map_mul, hxor, ← map_mul, gfClass_crcSteps, crcAdd]

theorem gfBytes_concat (l : List Byte) (b : Byte) :
    gfBytes (l ++ [b]) = gfBytes l * X ^ 8 + gfPoly (b.setWidth 16) := by
  rw [gfBytes, gfBytes, List.foldl_concat]

/-- Rule R104: COMPUTE's register is congruent to the bytes times x^16. -/
theorem gfClass_crcOf (l : List Byte) : gfClass (gfBytes l * X ^ 16) = gfClass (gfPoly (crcOf l)) := by
  induction l using List.reverseRecOn with
  | nil => rw [gfBytes, List.foldl_nil, zero_mul, crcOf, List.foldl_nil, crcInit, gfPoly_zero]
  | append_singleton l b ih =>
    rw [gfBytes_concat, crcOf_append]
    exact gfClass_crcAdd ih b

/-- Settles O7: each operation's register is congruent to the polynomial named (`gfClass_crcStep`, `gfClass_crcOf`), and
a register, of degree below 16, is its own remainder (`gfPoly_eq_modByMonic`). -/
theorem crcIsPolynomialRemainder : Obligations.CrcIsPolynomialRemainder :=
  ⟨fun s => ⟨_, rfl, gfPoly_eq_modByMonic (gfClass_crcStep s.crc)⟩,
    fun bytes _ => ⟨_, rfl, gfPoly_eq_modByMonic (gfClass_crcOf bytes)⟩⟩

end Sys2Proof.Machine
end

section
/-! PROOF. FRAME.ENCODE against FRAME.DECODE and FRAME.TRYDECODE, 41_frame_codec.md rules R123, R130. -/

namespace Sys2Proof.Machine

/-- Rule R71: the frame byte by byte up to the payload. -/
theorem wireFrame_eq_cons (w : Word16) (c m : Byte) (p : List Byte) :
    wireFrame w c m p = sync :: hi8 w :: lo8 w :: c :: m :: hi8 (BitVec.ofNat 16 p.length) ::
      lo8 (BitVec.ofNat 16 p.length) :: (p ++ bytes16 (crcOf (frameBody w c m p))) := rfl

/-- A value returned can be read back from the state. -/
theorem emit_inj {s : State} {r r' : Result} : s.emit r = s.emit r' ↔ r = r' := by
  refine ⟨fun h => ?_, fun h => h ▸ rfl⟩
  simpa using congrArg State.results h

/-- Rule R122: what FRAME.ENCODE returns, where it returns. -/
theorem frameEncode_fits {c m : Byte} {p : List Byte} (s : State) (hp : p.length ≤ 65535) :
    exec (.frameEncode c m p) s = .next (s.emit (.frame (wireFrame pcw c m p))) := returnFrame_fits hp

/-! What decodes. -/

theorem decodeSlice_wireFrame {w : Word16} {c m : Byte} {p : List Byte} (hp : p.length ≤ 65535) :
    decodeSlice (wireFrame w c m p) = .ok ⟨c, m, p⟩ := by
  rw [wireFrame_eq_candidate, decodeSlice_candidate hp, if_pos rfl]

/-- Rule R124: a slice that decodes is a frame of its triple, under some protocol control word. -/
theorem eq_wireFrame_of_decodeSlice {l : List Byte} {fr : Frame} (h : decodeSlice l = .ok fr) :
    fr.payload.length ≤ 65535 ∧ ∃ w, l = wireFrame w fr.category fr.messageId fr.payload := by
  have hwell : ¬ (l.length < 9 ∨ memRead1 l 0 ≠ sync ∨ l.length ≠ declaredTotal l) := by
    rw [← decodeSlice_eq_malformed, h]
    exact nofun
  simp only [not_or, Nat.not_lt, Classical.not_not] at hwell
  obtain ⟨hlen, hsync, htotal⟩ := hwell
  obtain ⟨w, c, m, p, k, hp, rfl⟩ := eq_candidate_of_declaredTotal hlen hsync htotal
  rw [decodeSlice_candidate hp] at h
  split at h
  · next hcrc =>
    cases h
    exact ⟨hp, w, hcrc ▸ rfl⟩
  · cases h

/-- Rule R126 on a buffer that starts with a whole candidate: the CRC field decides, as in `scanPass_candidate`. -/
theorem tryDecodeBuffer_candidate (d : CrcFailDrop) {w : Word16} {c m : Byte} {p : List Byte} {k : Word16}
    {rest : List Byte} (hp : p.length ≤ 65535) :
    tryDecodeBuffer d (candidate w c m p k ++ rest) =
      if crcOf (frameBody w c m p) = k then .decoded ⟨c, m, p⟩ (9 + p.length)
      else .resync (mismatchDrop d (9 + p.length)) := by
  have hindex : indexOf sync (candidate w c m p k ++ rest) = some 0 := by
    rw [candidate_append, indexOf_cons_self]
  have hlen : 9 + p.length ≤ (candidate w c m p k ++ rest).length := by
    rw [List.length_append, candidate_length]
    omega
  have hempty : ¬ (candidate w c m p k ++ rest).length = 0 := by omega
  have hheader : ¬ (candidate w c m p k ++ rest).length < hdrLen := by
    rw [hdrLen]
    omega
  have htake : (candidate w c m p k ++ rest).take (9 + p.length) = candidate w c m p k := by
    rw [← candidate_length w c m p k, List.take_left]
  simp only [tryDecodeBuffer, hindex, declaredTotal_candidate k rest hp, if_neg hempty, if_neg (Nat.lt_irrefl 0),
    if_neg hheader, if_neg (Nat.not_lt.mpr hlen), htake, decodeSlice_candidate hp]
  by_cases hcrc : crcOf (frameBody w c m p) = k
  · simp only [if_pos hcrc]
  · simp only [if_neg hcrc]

theorem tryDecodeBuffer_wireFrame (d : CrcFailDrop) {w : Word16} {c m : Byte} {p : List Byte} (t : List Byte)
    (hp : p.length ≤ 65535) :
    tryDecodeBuffer d (wireFrame w c m p ++ t) = .decoded ⟨c, m, p⟩ (9 + p.length) := by
  rw [wireFrame_eq_candidate, tryDecodeBuffer_candidate d hp, if_pos rfl]

/-! Which protocol control word re-encodes. -/

theorem eq_pcw_of_bytes {w : Word16} (hhi : hi8 w = 0x00#8) (hlo : lo8 w = 0x01#8) : w = pcw := by
  rw [← be16_hi8_lo8 w, hhi, hlo]
  decide

/-- Rule R75: a frame is the one FRAME.ENCODE writes exactly when its bytes 1 and 2 are PCW's. -/
theorem wireFrame_pcw_eq_iff {w : Word16} {c m : Byte} {p : List Byte} :
    wireFrame pcw c m p = wireFrame w c m p ↔
      (wireFrame w c m p)[1]? = some 0x00#8 ∧ (wireFrame w c m p)[2]? = some 0x01#8 := by
  constructor
  · intro h
    rw [← h]
    exact ⟨rfl, rfl⟩
  · rintro ⟨hhi, hlo⟩
    rw [eq_pcw_of_bytes (Option.some.inj hhi) (Option.some.inj hlo)]

/-- Settles O18: ENCODE writes a frame, which decodes to its triple (`decodeSlice_wireFrame`,
`tryDecodeBuffer_wireFrame`); a slice that decodes is a frame of its triple (`eq_wireFrame_of_decodeSlice`), and only
the word PCW re-encodes (`wireFrame_pcw_eq_iff`). -/
theorem encodeDecodeRoundTrip : Obligations.EncodeDecodeRoundTrip := by
  constructor
  · intro c m p t s hp
    refine ⟨_, frameEncode_fits s hp, ?_, ?_⟩
    · rw [← decodeSlice_wireFrame hp]
      rfl
    · rw [← tryDecodeBuffer_wireFrame s.straps.crcFailDrop t hp]
      rfl
  · intro l fr s h
    have hemit : s.emit (.decode (decodeSlice l)) = s.emit (.decode (.ok fr)) := Host.Outcome.next.inj h
    have hdecode : decodeSlice l = .ok fr := Result.decode.inj (emit_inj.mp hemit)
    obtain ⟨hp, w, rfl⟩ := eq_wireFrame_of_decodeSlice hdecode
    exact ⟨_, frameEncode_fits s hp, wireFrame_pcw_eq_iff⟩

/-! The properties of an encoded frame, rule R123. -/

/-- Rule R105 (d): a sequence followed by its own CRC has CRC zero. -/
theorem crcOf_append_crcOf (l : List Byte) : crcOf (l ++ bytes16 (crcOf l)) = 0x0000#16 := by
  rw [crcOf_append]
  exact crcAdd_own_bytes (crcOf l)

/-- Rule R72: the two bytes of the length field hold the length. -/
theorem lenField_bytes_toNat {n : Nat} (h : n ≤ 65535) :
    (hi8 (BitVec.ofNat 16 n)).toNat * 256 + (lo8 (BitVec.ofNat 16 n)).toNat = n := by
  rw [← be16_toNat, lenField_toNat h]

theorem wireFrame_payload (w : Word16) (c m : Byte) (p : List Byte) :
    ((wireFrame w c m p).drop 7).take p.length = p := by
  rw [wireFrame_eq_cons]
  exact List.take_left

/-- Rule R123: the triple can be read back, so no two triples share a frame. -/
theorem wireFrame_injective {w w' : Word16} {c m c' m' : Byte} {p p' : List Byte} (hp : p.length ≤ 65535)
    (hp' : p'.length ≤ 65535) (h : wireFrame w c m p = wireFrame w' c' m' p') : c = c' ∧ m = m' ∧ p = p' := by
  have hdecode := congrArg decodeSlice h
  rw [decodeSlice_wireFrame hp, decodeSlice_wireFrame hp', DecodeOutcome.ok.injEq, Frame.mk.injEq] at hdecode
  exact hdecode

/-- A frame FRAME.ENCODE returned is the frame of rule R71. -/
theorem eq_wireFrame_of_frameEncode {c m : Byte} {p f : List Byte} {s : State} (hp : p.length ≤ 65535)
    (h : exec (.frameEncode c m p) s = .next (s.emit (.frame f))) : f = wireFrame pcw c m p := by
  rw [frameEncode_fits s hp] at h
  exact (Result.frame.inj (emit_inj.mp (Host.Outcome.next.inj h))).symm

/-- Settles O14: the fixed bytes stand in `wireFrame_eq_cons`, the length field, the payload and the CRC have a lemma
each, and injectivity is that of `wireFrame`. -/
theorem encodedFrameProperties : Obligations.EncodedFrameProperties := by
  constructor
  · intro c m p s hp
    exact ⟨_, frameEncode_fits s hp, wireFrame_length .., rfl, rfl, rfl, rfl, rfl,
      ⟨_, _, rfl, rfl, lenField_bytes_toNat hp⟩, wireFrame_payload .., crcOf_append_crcOf (frameBody pcw c m p)⟩
  · intro c m c' m' p p' f s hp hp' h h'
    exact wireFrame_injective hp hp'
      ((eq_wireFrame_of_frameEncode hp h).symm.trans (eq_wireFrame_of_frameEncode hp' h'))

end Sys2Proof.Machine
end

section
/-! PROOF. RX.FEED by the scan it runs, 42_stream_reassembler.md rules R147, R149. -/

namespace Sys2Proof.Machine

/-- The state RX.FEED answers where the capacity leaves room (`rxFeed_room`): the buffer with the new bytes is scanned,
and nothing else changes. -/
def State.afterFeed (s : State) (new : List Byte) : State :=
  { s with
    buf := (scan s.straps.crcFailDrop (s.buf ++ new)).2
    results := s.results ++ [.events (scan s.straps.crcFailDrop (s.buf ++ new)).1] }

theorem rxFeed_room {new : List Byte} {s : State} (hroom : s.roomFor new.length) :
    exec (.rxFeed new) s = .next (s.afterFeed new) := feed_room hroom

/-- Rule R150: RX.BYTE is the feed of its byte. -/
theorem rxByte_room {b : Byte} {s : State} (hroom : s.roomFor 1) :
    exec (.rxByte b) s = .next (s.afterFeed [b]) := feed_room hroom

/-- Rule R33: only an answered feed had room. -/
theorem roomFor_of_rxFeed {new : List Byte} {s t : State} (h : exec (.rxFeed new) s = .next t) :
    s.roomFor new.length := by
  by_contra hfull
  have hrefused : exec (.rxFeed new) s = .refused .bufferCapacityExceeded := feed_full hfull
  rw [hrefused] at h
  cases h

/-- Rule R147: no scan emits more events than there are sync bytes. -/
theorem scan_events_le_count (d : CrcFailDrop) (b : List Byte) : (scan d b).1.length ≤ b.count sync :=
  (scan_spec d _ b (Nat.lt_succ_self _)).2.2

theorem scan_buf_length_le (d : CrcFailDrop) (b : List Byte) : (scan d b).2.length ≤ b.length :=
  (scan_spec d _ b (Nat.lt_succ_self _)).2.1

/-- Settles O22: a pass that resumes shortens the buffer (`scanPass_resume_length`), so every bound above its length
gives the scan (`scanFuel_eq`), and the events are bounded by the scan's (`scan_events_le_count`). -/
theorem feedEndsAndEventsAreBounded : Obligations.FeedEndsAndEventsAreBounded :=
  ⟨fun _ _ _ _ hresume => scanPass_resume_length hresume,
    fun d b n hn => scanFuel_eq d n (b.length + 1) b hn (Nat.lt_succ_self _),
    fun _ _ hroom => ⟨_, _, rxFeed_room hroom, scan_events_le_count _ _⟩⟩

/-- Rules R33, R34: a legal capacity always holds a buffer at rest. -/
theorem roomFor_zero_of_inv {s : State} (hinv : s.Inv) : s.roomFor 0 := by
  obtain ⟨hlegal, hrest⟩ := hinv
  intro cap hcap
  have hcapLegal : 65544 ≤ cap := by simpa [Straps.legal, hcap] using hlegal
  have hlen := atRest_length hrest
  omega

/-- Settles O23: a legal capacity has room for a buffer at rest, and the scan leaves one alone (`scan_atRest`). -/
theorem feedingNothingChangesNothing : Obligations.FeedingNothingChangesNothing := by
  intro s hinv
  rw [rxFeed_room (roomFor_zero_of_inv hinv), State.afterFeed, List.append_nil, scan_atRest hinv.2]

end Sys2Proof.Machine
end

section
/-! PROOF. Split invariance, 42_stream_reassembler.md rule R152: a list of feeds is the scan of its concatenation. -/

namespace Sys2Proof.Machine

theorem eventsOf_append (l l' : List Result) : eventsOf (l ++ l') = eventsOf l ++ eventsOf l' := List.flatMap_append

theorem eventsOf_events (evs : List Event) : eventsOf [.events evs] = evs := List.append_nil evs

theorem eventsOf_afterFeed (s : State) (new : List Byte) :
    eventsOf ((s.afterFeed new).results.drop s.results.length) =
      (scan s.straps.crcFailDrop (s.buf ++ new)).1 := by
  rw [State.afterFeed, List.drop_left, eventsOf_events]

theorem runOps_cons_of_next {i : Instr} {rest : List Instr} {s t : State} (h : exec i s = .next t) :
    runOps (i :: rest) s = runOps rest t := by
  rw [runOps, h]

theorem roomFor_of_le {s : State} {m n : Nat} (hroom : s.roomFor n) (hle : m ≤ n) : s.roomFor m :=
  fun cap hcap => le_trans (Nat.add_le_add_left hle _) (hroom cap hcap)

/-- A scan adds no byte, so the room for two feeds outlasts the first. -/
theorem roomFor_afterFeed {s : State} {p q : List Byte} (hroom : s.roomFor (p.length + q.length)) :
    (s.afterFeed p).roomFor q.length := by
  intro cap hcap
  have hbound := hroom cap hcap
  have hshrink : (s.afterFeed p).buf.length ≤ (s.buf ++ p).length := scan_buf_length_le _ _
  rw [List.length_append] at hshrink
  omega

/-- Feeds one after the other, from a buffer at rest with room for them all, do what the scan of their concatenation
does. The step is `scan_append`: a scan can be cut anywhere. -/
theorem runOps_rxFeeds (pieces : List (List Byte)) (s : State) (hrest : atRest s.buf = true)
    (hroom : s.roomFor pieces.flatten.length) :
    ∃ l, runOps (pieces.map .rxFeed) s = .next { s with
        buf := (scan s.straps.crcFailDrop (s.buf ++ pieces.flatten)).2
        results := s.results ++ l } ∧
      eventsOf l = (scan s.straps.crcFailDrop (s.buf ++ pieces.flatten)).1 := by
  induction pieces generalizing s with
  | nil =>
    rw [List.flatten_nil, List.append_nil, scan_atRest hrest]
    exact ⟨[], congrArg Host.Outcome.next (by rw [List.append_nil]), rfl⟩
  | cons p ps ih =>
    rw [List.flatten_cons, List.length_append] at hroom
    obtain ⟨l, hrun, hevents⟩ := ih (s.afterFeed p) (scan_ends_atRest _ _) (roomFor_afterFeed hroom)
    have hhead := rxFeed_room (roomFor_of_le hroom (Nat.le_add_right _ _))
    refine ⟨.events (scan s.straps.crcFailDrop (s.buf ++ p)).1 :: l, ?_⟩
    rw [List.flatten_cons, ← List.append_assoc, scan_append _ _ (s.buf ++ p) _ (Nat.lt_succ_self _)]
    constructor
    · rw [List.map_cons, runOps_cons_of_next hhead, hrun, List.append_cons]
      rfl
    · rw [← List.singleton_append, eventsOf_append, eventsOf_events, hevents]
      rfl

/-- Settles O25: both the one feed and the feeds one after the other are the scan of the whole (`rxFeed_room`,
`runOps_rxFeeds`). -/
theorem splitInvariance : Obligations.SplitInvariance := by
  intro pieces s t hfeed hrest
  have hroom := roomFor_of_rxFeed hfeed
  obtain ⟨l, hrun, hevents⟩ := runOps_rxFeeds pieces s hrest hroom
  rw [rxFeed_room hroom] at hfeed
  cases hfeed
  refine ⟨_, hrun, rfl, l, rfl, ?_, rfl, rfl, rfl⟩
  rw [hevents, eventsOf_afterFeed]

end Sys2Proof.Machine
end

section
/-! PROOF. RX.FEED as a loop of FRAME.TRYDECODE, 42_stream_reassembler.md rule R153. -/

namespace Sys2Proof.Machine

/-- Rule R126's resynchronisation: leading bytes without a sync byte are to be dropped. -/
theorem tryDecodeBuffer_garbage (d : CrcFailDrop) {g r : List Byte} (hg : sync ∉ g) (hne : g ≠ [])
    (hr : r = [] ∨ r.head? = some sync) : tryDecodeBuffer d (g ++ r) = .resync g.length := by
  have hlen : 0 < g.length := List.length_pos_iff.mpr hne
  have hempty : ¬ (g ++ r).length = 0 := by
    rw [List.length_append]
    omega
  rcases hr with rfl | hhead
  · rw [List.append_nil] at hempty ⊢
    simp only [tryDecodeBuffer, if_neg hempty, indexOf_none.mpr hg]
  · obtain ⟨t, rfl⟩ := List.head?_eq_some_iff.mp hhead
    simp only [tryDecodeBuffer, if_neg hempty, indexOf_garbage hg, gt_iff_lt, if_pos hlen]

/-- Rule R126 on a wait. -/
theorem tryDecodeBuffer_wait (d : CrcFailDrop) {t : List Byte}
    (hw : (sync :: t).length < 7 ∨ (sync :: t).length < declaredTotal (sync :: t)) :
    tryDecodeBuffer d (sync :: t) = .needMoreData := by
  have hempty : ¬ (sync :: t).length = 0 := by simp
  simp only [tryDecodeBuffer, if_neg hempty, indexOf_cons_self, gt_iff_lt, if_neg (Nat.lt_irrefl 0)]
  by_cases hshort : (sync :: t).length < hdrLen
  · rw [if_pos hshort]
  · rw [if_neg hshort, if_pos (hw.resolve_left hshort)]

/-- A round of the loop on leading bytes without a sync byte emits nothing. -/
theorem tryLoop_garbage (d : CrcFailDrop) (n : Nat) {g r : List Byte} (hg : sync ∉ g) (hne : g ≠ [])
    (hr : r = [] ∨ r.head? = some sync) : tryLoop d (n + 1) (g ++ r) = tryLoop d n r := by
  have hfirst : memRead1 (g ++ r) 0 ≠ sync := by
    obtain ⟨x, t, rfl⟩ := List.exists_cons_of_ne_nil hne
    exact fun hx => hg (hx ▸ List.mem_cons_self)
  simp only [tryLoop, tryDecodeBuffer_garbage d hg hne hr, List.drop_left, if_neg hfirst]

/-- A round of the loop on a candidate does what `scanPass_candidate` does. -/
theorem tryLoop_candidate (d : CrcFailDrop) (n : Nat) {w : Word16} {c m : Byte} {p : List Byte} {k : Word16}
    {rest : List Byte} (hp : p.length ≤ 65535) :
    tryLoop d (n + 1) (candidate w c m p k ++ rest) =
      if crcOf (frameBody w c m p) = k then
        (.validFrame ⟨c, m, p⟩ :: (tryLoop d n rest).1, (tryLoop d n rest).2)
      else
        (.corruptFrameDetected ::
            (tryLoop d n ((candidate w c m p k ++ rest).drop (mismatchDrop d (9 + p.length)))).1,
          (tryLoop d n ((candidate w c m p k ++ rest).drop (mismatchDrop d (9 + p.length)))).2) := by
  have hfirst : memRead1 (candidate w c m p k ++ rest) 0 = sync := rfl
  have hdrop : (candidate w c m p k ++ rest).drop (9 + p.length) = rest := by
    rw [← candidate_length w c m p k, List.drop_left]
  simp only [tryLoop, tryDecodeBuffer_candidate d hp]
  by_cases hcrc : crcOf (frameBody w c m p) = k
  · simp only [if_pos hcrc, hdrop]
  · simp only [if_neg hcrc, if_pos hfirst]

theorem tryLoop_nil (d : CrcFailDrop) : ∀ n, tryLoop d n [] = ([], [])
  | 0 => rfl
  | _ + 1 => rfl

/-- Rule R153: the loop of FRAME.TRYDECODE, with any bound above the buffer's length, is the scan. -/
theorem tryLoop_eq_scan (d : CrcFailDrop) (n : Nat) (b : List Byte) (h : b.length < n) : tryLoop d n b = scan d b := by
  induction n generalizing b with
  | zero => exact absurd h (Nat.not_lt_zero _)
  | succ n ih =>
    have garbage : ∀ g r, b = g ++ r → sync ∉ g → g ≠ [] → (r = [] ∨ r.head? = some sync) →
        tryLoop d (n + 1) b = scan d b := by
      rintro g r rfl hg hne hr
      have hlen := List.length_pos_iff.mpr hne
      rw [List.length_append] at h
      rw [tryLoop_garbage d n hg hne hr, scan_garbage d hg, ih r (by omega)]
    obtain hn | ⟨g, t, hb, hg, hw⟩ | ⟨g, w, c, m, p, k, rest, hb, hg, hp⟩ := buffer_cases b
    · obtain rfl | hne := eq_or_ne b []
      · rw [tryLoop_nil, scan_noSync d hn]
      · exact garbage b [] (List.append_nil b).symm hn hne (.inl rfl)
    · obtain rfl | hne := eq_or_ne g []
      · have hscan := scan_wait d hg hw
        rw [← hb] at hscan
        rw [hscan, hb, List.nil_append, tryLoop, tryDecodeBuffer_wait d hw]
      · exact garbage g _ hb hg hne (.inr rfl)
    · obtain rfl | hne := eq_or_ne g []
      · subst hb
        have hdrop := mismatchDrop_pos d p.length
        rw [List.nil_append, List.length_append, candidate_length] at h
        rw [scan_eq, scanPass_candidate d hg hp, List.nil_append, tryLoop_candidate d n hp]
        by_cases hcrc : crcOf (frameBody w c m p) = k
        · rw [if_pos hcrc, if_pos hcrc, ih rest (by omega)]
        · rw [if_neg hcrc, if_neg hcrc, ih _ (by rw [List.length_drop, List.length_append, candidate_length]; omega)]
      · exact garbage g _ hb hg hne (.inr rfl)

/-- Settles O26: FRAME.TRYDECODE returns its test's outcome, and both the feed and the loop are the scan
(`rxFeed_room`, `tryLoop_eq_scan`). -/
theorem feedIsTryDecodeLoop : Obligations.FeedIsTryDecodeLoop := by
  refine ⟨fun _ _ => rfl, fun new s hroom n hn => ?_⟩
  rw [tryLoop_eq_scan _ n _ hn]
  exact rxFeed_room hroom

end Sys2Proof.Machine
end

section
/-! PROOF. The framing FSM, 42_stream_reassembler.md rules R150, R151: what one more byte makes of a buffer at rest. -/

namespace Sys2Proof.Machine

/-! The view, rule R151's conditions. -/

theorem fsmView_eq_hunt {b : List Byte} : fsmView b = .hunt ↔ b = [] := by
  unfold fsmView
  split_ifs <;> simp_all

theorem fsmView_eq_header {b : List Byte} {n : Nat} :
    fsmView b = .header n ↔ b ≠ [] ∧ b.length < 7 ∧ b.length = n := by
  unfold fsmView
  split_ifs <;> simp_all

theorem nine_le_declaredTotal (b : List Byte) : 9 ≤ declaredTotal b := Nat.le_add_right 9 _

theorem ne_nil_of_seven_le {b : List Byte} (h : 7 ≤ b.length) : b ≠ [] := by
  rintro rfl
  simp at h

theorem fsmView_eq_body {b : List Byte} {n total : Nat} :
    fsmView b = .body n total ↔
      7 ≤ b.length ∧ b.length < declaredTotal b ∧ b.length = n ∧ declaredTotal b = total := by
  unfold fsmView
  split_ifs <;> simp_all

theorem fsmView_eq_check {b : List Byte} : fsmView b = .check ↔ 7 ≤ b.length ∧ declaredTotal b ≤ b.length := by
  unfold fsmView
  split_ifs <;> simp_all

/-! One more byte on a buffer at rest. -/

/-- Rule R34 in one bound: a header of under seven bytes is also shorter than any declared total. -/
theorem atRest_iff {b : List Byte} :
    atRest b = true ↔ b = [] ∨ (memRead1 b 0 = sync ∧ b.length < declaredTotal b) := by
  have hmin := nine_le_declaredTotal b
  have hshort : b.length < hdrLen → b.length < declaredTotal b := fun h => by
    rw [hdrLen] at h
    omega
  simp only [atRest, Bool.or_eq_true, Bool.and_eq_true, decide_eq_true_eq, or_iff_right_of_imp hshort]

theorem memRead1_of_atRest {a : List Byte} (ha : atRest a = true) (hne : a ≠ []) : memRead1 a 0 = sync :=
  ((atRest_iff.mp ha).resolve_left hne).1

/-- Rule R151: a byte before the last one of the declared total leaves the buffer at rest, whatever it is. -/
theorem atRest_snoc {a : List Byte} {b : Byte} (ha : atRest a = true) (hne : a ≠ [])
    (hlen : a.length + 1 < declaredTotal (a ++ [b])) : atRest (a ++ [b]) = true := by
  refine atRest_iff.mpr (.inr ⟨?_, by rwa [List.length_append]⟩)
  rw [memRead1_append (List.length_pos_iff.mpr hne)]
  exact memRead1_of_atRest ha hne

/-- Rule R74: the header fixes the declared total. -/
theorem declaredTotal_append {a : List Byte} (y : List Byte) (h7 : 7 ≤ a.length) :
    declaredTotal (a ++ y) = declaredTotal a := by
  rw [declaredTotal, memRead2_append h7, declaredTotal]

/-- Rule R151: the byte that reaches the declared total makes a whole candidate. -/
theorem eq_candidate_of_last_byte {a : List Byte} {b : Byte} (ha : atRest a = true) (h7 : 7 ≤ a.length)
    (hlast : a.length + 1 = declaredTotal a) :
    ∃ w c m p k, p.length ≤ 65535 ∧ a ++ [b] = candidate w c m p k := by
  have hlen : (a ++ [b]).length = declaredTotal (a ++ [b]) := by
    rw [declaredTotal_append _ h7, ← hlast, List.length_append, List.length_singleton]
  apply eq_candidate_of_declaredTotal _ _ hlen
  · rw [hlen]
    exact nine_le_declaredTotal _
  · rw [memRead1_append (by omega)]
    exact memRead1_of_atRest ha (ne_nil_of_seven_le h7)

/-! A whole candidate alone in the buffer: the FSM's CHECK. -/

section Check
variable {w : Word16} {c m : Byte} {p : List Byte} {k : Word16}

theorem fsmView_candidate (hp : p.length ≤ 65535) : fsmView (candidate w c m p k) = .check := by
  have htotal := declaredTotal_candidate (w := w) (c := c) (m := m) k [] hp
  rw [List.append_nil] at htotal
  rw [fsmView_eq_check, htotal, candidate_length]
  omega

theorem scan_of_decodes (d : CrcFailDrop) {fr : Frame} {l : List Byte} (h : decodeSlice l = .ok fr) :
    scan d l = ([.validFrame fr], []) := by
  obtain ⟨hp, w, rfl⟩ := eq_wireFrame_of_decodeSlice h
  exact scan_wireFrame d w _ _ _ hp

/-- A mismatch, under either strap. -/
theorem scan_of_not_decodes (d : CrcFailDrop) (hp : p.length ≤ 65535)
    (h : ∀ fr, decodeSlice (candidate w c m p k) ≠ .ok fr) :
    scan d (candidate w c m p k) =
      (.corruptFrameDetected :: (scan d ((candidate w c m p k).drop (mismatchDrop d (9 + p.length)))).1,
        (scan d ((candidate w c m p k).drop (mismatchDrop d (9 + p.length)))).2) := by
  have hcrc : crcOf (frameBody w c m p) ≠ k := fun hk => h ⟨c, m, p⟩ (by rw [decodeSlice_candidate hp, if_pos hk])
  have hscan := scan_corrupt d (g := []) (rest := []) List.not_mem_nil hp hcrc
  rwa [List.append_nil, List.nil_append] at hscan

/-- A mismatch under CANDIDATE drops the whole candidate, so nothing is left to scan. -/
theorem scan_candidate_of_not_decodes (hp : p.length ≤ 65535)
    (h : ∀ fr, decodeSlice (candidate w c m p k) ≠ .ok fr) :
    scan .candidate (candidate w c m p k) = ([.corruptFrameDetected], []) := by
  rw [scan_of_not_decodes .candidate hp h, mismatchDrop, ← candidate_length w c m p k, List.drop_length,
    scan_noSync _ List.not_mem_nil]

end Check

/-! The rows of rule R151's table, by the view they start from. -/

theorem scan_byte_of_ne_sync (d : CrcFailDrop) {b : Byte} (hb : b ≠ sync) : scan d [b] = ([], []) :=
  scan_noSync d (by simpa using hb.symm)

theorem scan_sync (d : CrcFailDrop) : scan d [sync] = ([], [sync]) := scan_atRest (by decide)

section Rows
variable {a : List Byte} {n total : Nat}

theorem header_append_byte (b : Byte) (ha : atRest a = true) (hview : fsmView a = .header n) :
    1 ≤ n ∧ n ≤ 6 ∧ atRest (a ++ [b]) = true ∧
      (n < 6 → fsmView (a ++ [b]) = .header (n + 1)) ∧
      (n = 6 → ∃ total, 9 ≤ total ∧ fsmView (a ++ [b]) = .body 7 total) := by
  obtain ⟨hne, hshort, rfl⟩ := fsmView_eq_header.mp hview
  have hpos := List.length_pos_iff.mpr hne
  have hmin := nine_le_declaredTotal (a ++ [b])
  have hlen : (a ++ [b]).length = a.length + 1 := List.length_append
  refine ⟨hpos, by omega, atRest_snoc ha hne (by omega), fun h6 => ?_, fun h6 => ⟨_, hmin, ?_⟩⟩
  · exact fsmView_eq_header.mpr ⟨by simp, by omega, hlen⟩
  · exact fsmView_eq_body.mpr ⟨by omega, by omega, by omega, rfl⟩

theorem body_append_byte (b : Byte) (ha : atRest a = true) (hview : fsmView a = .body n total) (hmore : n + 1 < total) :
    atRest (a ++ [b]) = true ∧ fsmView (a ++ [b]) = .body (n + 1) total := by
  obtain ⟨h7, -, rfl, rfl⟩ := fsmView_eq_body.mp hview
  have htotal := declaredTotal_append [b] h7
  have hlen : (a ++ [b]).length = a.length + 1 := List.length_append
  refine ⟨atRest_snoc ha (ne_nil_of_seven_le h7) (by omega), ?_⟩
  exact fsmView_eq_body.mpr ⟨by omega, by omega, hlen, htotal⟩

theorem body_append_last_byte (b : Byte) (ha : atRest a = true) (hview : fsmView a = .body n total)
    (hlast : n + 1 = total) : ∃ w c m p k, p.length ≤ 65535 ∧ a ++ [b] = candidate w c m p k := by
  obtain ⟨h7, -, rfl, rfl⟩ := fsmView_eq_body.mp hview
  exact eq_candidate_of_last_byte ha h7 hlast

theorem body_bounds (hview : fsmView a = .body n total) : 7 ≤ n ∧ n < total := by
  obtain ⟨h7, hlt, rfl, rfl⟩ := fsmView_eq_body.mp hview
  exact ⟨h7, hlt⟩

theorem fsmView_ne_check (ha : atRest a = true) : fsmView a ≠ .check := by
  intro hview
  obtain ⟨h7, htotal⟩ := fsmView_eq_check.mp hview
  have hlt := ((atRest_iff.mp ha).resolve_left (ne_nil_of_seven_le h7)).2
  omega

/-- Rule R150's bound, row by row of rule R151's table. -/
theorem scan_append_byte_events_le_one (b : Byte) (ha : atRest a = true) :
    (scan .candidate (a ++ [b])).1.length ≤ 1 := by
  cases hview : fsmView a with
  | hunt =>
    rw [fsmView_eq_hunt.mp hview, List.nil_append]
    by_cases hb : b = sync
    · rw [hb, scan_sync]
      exact Nat.zero_le 1
    · rw [scan_byte_of_ne_sync _ hb]
      exact Nat.zero_le 1
  | header n =>
    obtain ⟨-, -, hwait, -⟩ := header_append_byte b ha hview
    rw [scan_atRest hwait]
    exact Nat.zero_le 1
  | body n total =>
    obtain hmore | hlast := (Nat.succ_le_of_lt (body_bounds hview).2).lt_or_eq
    · rw [scan_atRest (body_append_byte b ha hview hmore).1]
      exact Nat.zero_le 1
    · obtain ⟨w, c, m, p, k, hp, hcand⟩ := body_append_last_byte b ha hview hlast
      rw [hcand]
      by_cases hok : ∃ fr, decodeSlice (candidate w c m p k) = .ok fr
      · obtain ⟨fr, hfr⟩ := hok
        rw [scan_of_decodes _ hfr]
        rfl
      · rw [scan_candidate_of_not_decodes hp (not_exists.mp hok)]
        rfl
  | check => exact absurd hview (fsmView_ne_check ha)

end Rows

/-- Settles O24: the hunt rows are `scan_byte_of_ne_sync` and `scan_sync`, the waiting rows end at rest
(`header_append_byte`, `body_append_byte`), and the last byte makes a candidate (`body_append_last_byte`), whose scan is
decided by its decode. -/
theorem fsmTransitions : Obligations.FsmTransitions := by
  intro b s hroom hrest
  refine ⟨_, _, rxByte_room hroom, ?_, ?_, ?_, ?_, fsmView_ne_check hrest⟩
  · intro hhunt hb
    rw [fsmView_eq_hunt.mp hhunt, List.nil_append, scan_byte_of_ne_sync _ hb]
    exact ⟨rfl, rfl, rfl⟩
  · rintro hhunt rfl
    rw [fsmView_eq_hunt.mp hhunt, List.nil_append, scan_sync]
    exact ⟨rfl, rfl, rfl⟩
  · intro n hview
    obtain ⟨hlow, hhigh, hwait, hnext⟩ := header_append_byte b hrest hview
    rw [scan_atRest hwait]
    exact ⟨hlow, hhigh, rfl, rfl, hnext⟩
  · intro n total hview
    obtain ⟨hlow, hlt⟩ := body_bounds hview
    refine ⟨hlow, hlt, fun hmore => ?_, fun hlast => ?_⟩
    · obtain ⟨hwait, hnext⟩ := body_append_byte b hrest hview hmore
      rw [scan_atRest hwait]
      exact ⟨hnext, rfl, rfl⟩
    · obtain ⟨w, c, m, p, k, hp, hcand⟩ := body_append_last_byte b hrest hview hlast
      rw [hcand]
      refine ⟨fsmView_candidate hp, fun fr hok => ?_, fun hbad => ⟨fun hdrop => ?_, fun hdrop => ?_⟩⟩
      · rw [scan_of_decodes _ hok]
        exact ⟨rfl, rfl, rfl⟩
      · rw [hdrop, scan_candidate_of_not_decodes hp hbad]
        exact ⟨rfl, rfl, rfl⟩
      · rw [hdrop, scan_of_not_decodes .oneByte hp hbad]
        exact ⟨rfl, rfl⟩

/-- Ten bytes of a candidate of eleven whose CRC field does not match, with the sync byte of another candidate at
offset 2. -/
def nestedCandidate : List Byte :=
  [0x5A#8, 0x00#8, 0x5A#8, 0x00#8, 0x00#8, 0x00#8, 0x02#8, 0x00#8, 0x00#8, 0x00#8]

/-- Under ONE_BYTE the eleventh byte makes one event of either candidate. -/
theorem nestedCandidate_events : (scan .oneByte (nestedCandidate ++ [0x00#8])).1.length = 2 := by decide +kernel

/-- The state that holds `nestedCandidate` under ONE_BYTE. -/
def nestedState : State :=
  { State.reset with straps := { Straps.default with crcFailDrop := .oneByte }, buf := nestedCandidate }

/-- Settles O20: RX.BYTE is the feed of its byte by definition, the bound is `scan_append_byte_events_le_one`, and
`nestedState` returns two events. -/
theorem rxByteIsFeedOfOneByte : Obligations.RxByteIsFeedOfOneByte := by
  refine ⟨fun b s => ⟨rfl, fun hroom => ⟨_, _, rxByte_room hroom, fun hdrop hrest => ?_⟩⟩, ?_⟩
  · rw [hdrop]
    exact scan_append_byte_events_le_one b hrest
  · have hroom : nestedState.roomFor 1 := nofun
    refine ⟨0x00#8, nestedState, _, _, rfl, by decide, ?_, rxByte_room hroom⟩
    exact nestedCandidate_events.symm ▸ Nat.one_lt_two

end Sys2Proof.Machine
end

section
/-! PROOF. The payload layer, 43_payload_layer.md: the frame INV.START returns. -/

namespace Sys2Proof.Machine

/-- Rule R171: bit `j` of the mask belongs to the antenna id `j + 1`, and no bit stands for any other id. -/
theorem antennaMask_getLsbD {ids : List Nat} (hids : ∀ id ∈ ids, 1 ≤ id ∧ id ≤ 4) (j : Nat) :
    (antennaMask ids).getLsbD j = decide (j + 1 ∈ ids) := by
  rw [antennaMask, antennaMask_fold ids _ j hids, BitVec.getLsbD_zero, Bool.false_or]

/-- Rule R171: INV.START on admissible ids is FRAME.ENCODE of their START payload. -/
theorem exec_invStart_eq_frameEncode {ids : List Nat} (hids : ∀ id ∈ ids, 1 ≤ id ∧ id ≤ 4) (continuous : Bool)
    (s : State) : exec (.invStart ids continuous) s =
      exec (.frameEncode catInventory midStart (startPayload (antennaMask ids) continuous)) s :=
  if_pos (antennaIds_all.mpr hids)

/-- Settles O31: INV.START is FRAME.ENCODE of the START payload (`exec_invStart_eq_frameEncode`), whose five bytes make
a frame of 14 (`wireFrame_length`), and `antennaMask_getLsbD` reads the mask. -/
theorem invStartBuildsTheMask : Obligations.InvStartBuildsTheMask := by
  intro ids continuous s hids
  have hfits : (startPayload (antennaMask ids) continuous).length ≤ 65535 := by simp
  have hencode := frameEncode_fits (c := catInventory) (m := midStart) s hfits
  exact ⟨antennaMask ids, _, antennaMask_getLsbD hids, wireFrame_length .., hencode,
    (exec_invStart_eq_frameEncode hids continuous s).trans hencode⟩

end Sys2Proof.Machine
end

section
/-! PROOF. Errors, 60_exceptions.md: InvalidEpcLength, the error value EPCW.BUILD returns. -/

namespace Sys2Proof.Machine

theorem exec_epcwBuild (old new : List Char) (id : Nat) (pw : Word32) (s : State) :
    exec (.epcwBuild old new id pw) s = execEpcwBuild old new id pw s := rfl

/-- Settles O36: the three refusals of rule R184 do not fire, so the length test decides (`epcwBuild_newLength`); what it
emits is one more returned value and no other change. -/
theorem epcwBuildInvalidEpcLength : Obligations.EpcwBuildInvalidEpcLength := by
  intro old new id pw s hhex hold hid1 hid4 hnew
  rw [exec_epcwBuild]
  exact epcwBuild_newLength hhex hold ⟨hid1, hid4⟩ hnew

end Sys2Proof.Machine
end

section
/-! PROOF. The machine: RESET, the step and the frame of every operation, 10_state.md rules R31 to R40, R46. Each frame
statement is read off `exec_changes`. -/

namespace Sys2Proof.Machine

/-! RESET and the reset state, rules R46, R231. -/

/-- Settles O10: RESET's two field updates are the record update, and the empty buffer is HUNT. -/
theorem resetClearsBufferAndCrc : Obligations.ResetClearsBufferAndCrc :=
  fun _ => ⟨rfl, fsmView_eq_hunt.mpr rfl⟩

/-- Settles O11: `State.reset` is written with the reset values, and RESET writes the same ones. -/
theorem resetStateHoldsResetValues : Obligations.ResetStateHoldsResetValues :=
  ⟨rfl, rfl, fsmView_eq_hunt.mpr rfl, fun _ => ⟨_, rfl, rfl, rfl, rfl, rfl⟩⟩

/-- Settles O53: the default capacity is unbounded, and the empty buffer is at rest. -/
theorem resetMeetsInvariant : Obligations.ResetMeetsInvariant :=
  ⟨rfl, atRest_iff.mpr (.inl rfl)⟩

/-- Settles O52: the row of select code 0xF has this one answer. -/
theorem unassignedCodeIsRefused : Obligations.UnassignedCodeIsRefused := fun _ => rfl

/-! The step, rules R61, R216, R245. -/

theorem fetch_idle {s : State} (h : s.requests = []) : fetch s = .idle := by
  simp only [fetch, h]

theorem fetch_operation {s : State} {i : Instr} {rest : List Byte} (h : decode s.requests = .ok (i, rest)) :
    fetch s = .operation i rest := by
  cases hreq : s.requests with
  | nil =>
    rw [hreq] at h
    cases h
  | cons b r =>
    rw [hreq] at h
    simp only [fetch, hreq, h]

theorem fetch_undecodable {s : State} {e : DecodeError} (hreq : s.requests ≠ []) (h : decode s.requests = .error e) :
    fetch s = .undecodable e := by
  obtain ⟨b, r, hcons⟩ := List.exists_cons_of_ne_nil hreq
  rw [hcons] at h
  simp only [fetch, hcons, h]

/-- Settles O55: what decodes is what `fetch` takes. -/
theorem stepRunsTheDecodedOperation : Obligations.StepRunsTheDecodedOperation := by
  intro s i rest h
  rw [step, fetch_operation h]
  rfl

/-- Settles O56: `fetch` finds the stream empty, or what it holds undecodable. -/
theorem idleWithoutRequest : Obligations.IdleWithoutRequest := by
  constructor
  · intro s h
    rw [step, fetch_idle h]
  · intro s e hreq h
    rw [step, fetch_undecodable hreq h]

/-! What a next state keeps. -/

/-- Rules R33, R34: an operation keeps the invariant: it leaves the buffer alone, or at rest. -/
theorem Changes.keeps_inv {i : Instr} {s t : State} (h : Changes i s t) (hinv : s.Inv) : t.Inv := by
  obtain ⟨c, b, l, rfl, -, -, hkeep, hrest⟩ := h
  obtain ⟨hlegal, hbuf⟩ := hinv
  refine ⟨hlegal, ?_⟩
  cases htouch : i.touchesBuf with
  | false => exact (hkeep htouch).symm ▸ hbuf
  | true => exact hrest htouch

/-- Settles O54: the idle step changes nothing, and taking a request changes neither straps nor buffer, so the
operation's `Changes.keeps_inv` applies. -/
theorem stepKeepsInvariant : Obligations.StepKeepsInvariant := by
  intro s t hinv h
  obtain ⟨-, rfl⟩ | ⟨i, rest, -, hexec⟩ := step_cases h
  · exact hinv
  · exact (exec_changes hexec).keeps_inv hinv

/-- Settles O45: by `exec_changes` the buffer is the same list, so every offset reads the same. -/
theorem otherOperationsKeepTheBuffer : Obligations.OtherOperationsKeepTheBuffer := by
  intro i s t htouch h
  obtain ⟨c, b, l, rfl, -, -, hkeep, -⟩ := exec_changes h
  have hbuf : b = s.buf := hkeep htouch
  exact ⟨hbuf, fun k => congrArg (bufByte · k) hbuf⟩

/-- Settles O46: by `exec_changes`. -/
theorem otherOperationsKeepTheCrc : Obligations.OtherOperationsKeepTheCrc := by
  intro i s t htouch h
  obtain ⟨c, b, l, rfl, -, hkeep, -⟩ := exec_changes h
  exact hkeep htouch

/-- Settles O47: `exec_changes` names every field an operation can change, and taking a request leaves the straps. -/
theorem strapsNeverChange : Obligations.StrapsNeverChange := by
  constructor
  · intro i s t h
    obtain ⟨c, b, l, rfl, -⟩ := exec_changes h
    exact ⟨rfl, rfl⟩
  · intro s t h
    obtain ⟨-, rfl⟩ | ⟨i, rest, -, hexec⟩ := step_cases h
    · rfl
    · obtain ⟨c, b, l, rfl, -⟩ := exec_changes hexec
      rfl

/-- Settles O48: the list `exec_changes` names is appended; the idle step appends nothing. -/
theorem returnedValuesStand : Obligations.ReturnedValuesStand := by
  constructor
  · intro i s t h
    obtain ⟨c, b, l, rfl, hlen, -⟩ := exec_changes h
    exact ⟨l, rfl, hlen⟩
  · intro s t h
    obtain ⟨-, rfl⟩ | ⟨i, rest, -, hexec⟩ := step_cases h
    · exact ⟨[], (List.append_nil _).symm, Nat.zero_le 2⟩
    · obtain ⟨c, b, l, rfl, hlen, -⟩ := exec_changes hexec
      exact ⟨l, rfl, hlen⟩

end Sys2Proof.Machine
end

section
/-! PROOF. The request encoding (log entries 4 and 5): decode and encode undo each other, and which row a bare frame
header names, 30_encoding.md rules R79, R91. -/

namespace Sys2Proof

open Sys2Proof.Machine

/-! The first byte of a request. -/

theorem decode_bare (rest : List Byte) : decode (sync :: rest) = decodeFrame pickBare (sync :: rest) := by
  rw [decode, if_pos rfl]

theorem decode_frameRow (row : FrameRow) (rest : List Byte) :
    decode (row.select :: rest) = decodeFrame (pickSelected row) rest := by
  obtain ⟨hsync, hcode⟩ := row.select_range
  rw [decode, if_neg hsync, if_neg hcode, row.ofSelect_select]

/-! Decode of encode. -/

theorem pickSelected_of_fields {row : FrameRow} {w : Word16} {c m : Byte} (hi lo : Byte) (h : row.Fields w c m) :
    pickSelected row [sync, hi8 w, lo8 w, c, m, hi, lo] = .ok row :=
  if_pos ((row.admits_iff w c m hi lo).mpr h)

/-- A FRAME row's encoding carries a header of that row, so the selected row reads it back. -/
theorem decode_encodeFrame {row : FrameRow} {w : Word16} {c m : Byte} {p : List Byte} (rest : List Byte)
    (hfields : row.Fields w c m) (hp : framePayloadFits p = true) :
    decode (encodeFrame row w c m p ++ rest) = .ok (row.instr w c m p, rest) :=
  (decode_frameRow row _).trans (decodeFrame_ok (of_decide_eq_true hp) (pickSelected_of_fields _ _ hfields))

/-- Settles O57: a select code's operands read back one by one (`takeBytes_encodeBytes` and its like), and a FRAME row
by `decode_encodeFrame`. -/
theorem decodeOfEncode : Obligations.DecodeOfEncode := by
  intro i rest hwf
  cases i with
  | reset | crcClear | crcBit | invStop | unassigned => rfl
  | crcByte b | rxByte b => rfl
  | crcCompute l | frameDecode l | frameTryDecode l | rxFeed l | tagParse l | wresParse l =>
    simp [encode, decode_select, decodeOp, parseThen, takeBytes_encodeBytes]
  | frameEncode c m p => simp [encode, decode_select, decodeOp, parseThen, takeByte, takeBytes_encodeBytes]
  | invStart ids continuous =>
    simp [encode, decode_select, decodeOp, parseThen, takeBytes_encodeBytes, takeBool_encodeBool,
      map_idOfByte_byteOfId hwf, -List.map_map]
  | epcwBuild old new id pw =>
    simp only [Instr.wellFormed, Bool.and_eq_true, antennaIdFits, decide_eq_true_eq] at hwf
    obtain ⟨⟨hold, hnew⟩, hid⟩ := hwf
    simp [encode, decode_select, decodeOp, parseThen, takeByte, takeBytes_encodeBytes, takeWord32_be32,
      map_charOfByte_byteOfChar hold, map_charOfByte_byteOfChar hnew, idOfByte_byteOfId hid, -List.map_map]
  | frameAny w c m p => exact decode_encodeFrame (row := .any) rest trivial hwf
  | tagReport p => exact decode_encodeFrame (row := .tagReport) rest ⟨rfl, rfl, rfl⟩ hwf
  | startInventory p => exact decode_encodeFrame (row := .startInventory) rest ⟨rfl, rfl, rfl⟩ hwf
  | writeEpcCmd p => exact decode_encodeFrame (row := .writeEpcCmd) rest ⟨rfl, rfl, rfl⟩ hwf
  | writeEpcRsp p => exact decode_encodeFrame (row := .writeEpcRsp) rest ⟨rfl, rfl, rfl⟩ hwf
  | stopInventory p => exact decode_encodeFrame (row := .stopInventory) rest ⟨rfl, rfl, rfl⟩ hwf
  | tagReportClassify w p => exact decode_encodeFrame (row := .tagReportClassify) rest ⟨rfl, rfl⟩ hwf
  | startInventoryClassify w p => exact decode_encodeFrame (row := .startInventoryClassify) rest ⟨rfl, rfl⟩ hwf
  | writeEpcClassify w p => exact decode_encodeFrame (row := .writeEpcClassify) rest ⟨rfl, rfl⟩ hwf
  | stopInventoryClassify w p => exact decode_encodeFrame (row := .stopInventoryClassify) rest ⟨rfl, rfl⟩ hwf

/-! Encode of decode. -/

/-- An operation whose one operand is a byte. -/
theorem parse_byteOperand {op : Byte → Instr} {r rest : List Byte} {i : Instr}
    (h : parseThen (takeByte r) (fun b r => .ok (op b, r)) = .ok (i, rest)) : ∃ b, i = op b ∧ r = b :: rest := by
  obtain ⟨b, r', hb, h'⟩ := parseThen_ok h
  cases h'
  exact ⟨b, rfl, takeByte_ok hb⟩

/-- An operation whose one operand is a byte sequence. -/
theorem parse_bytesOperand {op : List Byte → Instr} {r rest : List Byte} {i : Instr}
    (h : parseThen (takeBytes r) (fun l r => .ok (op l, r)) = .ok (i, rest)) :
    ∃ l, i = op l ∧ r = encodeBytes l ++ rest := by
  obtain ⟨l, r', hl, h'⟩ := parseThen_ok h
  cases h'
  exact ⟨l, rfl, takeBytes_ok _ _ _ hl⟩

theorem all_antennaIdFits_map (l : List Byte) : (l.map idOfByte).all antennaIdFits = true := by
  simp [antennaIdFits, idOfByte_lt]

theorem all_charFits_map (l : List Byte) : (l.map charOfByte).all charFits = true := by
  simp [charFits, charOfByte_lt]

theorem map_byteOfId_idOfByte (l : List Byte) : (l.map idOfByte).map byteOfId = l := by
  simp [Function.comp_def, byteOfId_idOfByte]

theorem map_byteOfChar_charOfByte (l : List Byte) : (l.map charOfByte).map byteOfChar = l := by
  simp [Function.comp_def, byteOfChar_charOfByte]

/-- What a select code and the bytes after it decode to is well-formed and has them as its encoding. -/
theorem decodeOp_ok {n : Nat} {r rest : List Byte} {i : Instr} (h : decodeOp n r = .ok (i, rest)) :
    i.wellFormed = true ∧ BitVec.ofNat 8 n :: r = encode i ++ rest := by
  unfold decodeOp at h
  split at h
  -- select codes 0, 1, 2, 11, 15: no operand
  case h_1 | h_2 | h_3 | h_12 | h_16 =>
    cases h
    exact ⟨rfl, rfl⟩
  -- select codes 3, 9: one byte
  case h_4 | h_10 =>
    obtain ⟨b, rfl, rfl⟩ := parse_byteOperand h
    exact ⟨rfl, rfl⟩
  -- select codes 4, 6, 7, 8, 12, 14: one byte sequence
  case h_5 | h_7 | h_8 | h_9 | h_13 | h_15 =>
    obtain ⟨l, rfl, rfl⟩ := parse_bytesOperand h
    exact ⟨rfl, rfl⟩
  -- FRAME.ENCODE
  case h_6 =>
    obtain ⟨c, r1, hc, h1⟩ := parseThen_ok h
    obtain ⟨m, r2, hm, h2⟩ := parseThen_ok h1
    obtain ⟨p, rfl, rfl⟩ := parse_bytesOperand h2
    rw [takeByte_ok hc, takeByte_ok hm]
    exact ⟨rfl, rfl⟩
  -- INV.START
  case h_11 =>
    obtain ⟨ids, r1, hids, h1⟩ := parseThen_ok h
    obtain ⟨c, r2, hc, h2⟩ := parseThen_ok h1
    cases h2
    rw [takeBytes_ok _ _ _ hids, takeBool_ok hc, encode, map_byteOfId_idOfByte]
    exact ⟨all_antennaIdFits_map ids, by simp⟩
  -- EPCW.BUILD
  case h_14 =>
    obtain ⟨old, r1, hold, h1⟩ := parseThen_ok h
    obtain ⟨new, r2, hnew, h2⟩ := parseThen_ok h1
    obtain ⟨id, r3, hid, h3⟩ := parseThen_ok h2
    obtain ⟨pw, r4, hpw, h4⟩ := parseThen_ok h3
    cases h4
    rw [takeBytes_ok _ _ _ hold, takeBytes_ok _ _ _ hnew, takeByte_ok hid, takeWord32_ok hpw, encode,
      map_byteOfChar_charOfByte, map_byteOfChar_charOfByte, byteOfId_idOfByte]
    refine ⟨?_, by simp⟩
    rw [Instr.wellFormed, all_charFits_map, all_charFits_map, antennaIdFits, decide_eq_true (idOfByte_lt id)]
    rfl
  -- no select code
  case h_17 => cases h

/-- What decodes as a frame is a header of the picked row, its declared payload, and the rest. -/
theorem decodeFrame_inv {pick : List Byte → Except DecodeError FrameRow} {l rest : List Byte} {i : Instr}
    (h : decodeFrame pick l = .ok (i, rest)) :
    ∃ row f0 w c m p, p.length ≤ 65535 ∧ i = FrameRow.instr row w c m p ∧
      pick [f0, hi8 w, lo8 w, c, m, hi8 (BitVec.ofNat 16 p.length), lo8 (BitVec.ofNat 16 p.length)] = .ok row ∧
      l = f0 :: hi8 w :: lo8 w :: c :: m :: hi8 (BitVec.ofNat 16 p.length) :: lo8 (BitVec.ofNat 16 p.length) ::
        (p ++ rest) := by
  unfold decodeFrame at h
  split at h
  case h_1 f0 f1 f2 f3 f4 f5 f6 tail =>
    split at h
    · cases h
    · next row hpick =>
      simp only at h
      split at h
      · cases h
      · next hlong =>
        cases h
        have hlen : (tail.take (be16 f5 f6).toNat).length = (be16 f5 f6).toNat :=
          List.length_take_of_le (Nat.le_of_not_lt hlong)
        have hbound := (be16 f5 f6).isLt
        refine ⟨row, f0, be16 f1 f2, f3, f4, tail.take (be16 f5 f6).toNat, by omega, rfl, ?_, ?_⟩
        · rwa [hlen, BitVec.ofNat_toNat, BitVec.setWidth_eq, hi8_be16, lo8_be16, hi8_be16, lo8_be16]
        · rw [hlen, BitVec.ofNat_toNat, BitVec.setWidth_eq, hi8_be16, lo8_be16, hi8_be16, lo8_be16,
            List.take_append_drop]
  case h_2 => cases h

/-- A selected FRAME row that decodes had its own header, and its encoding is what was read. -/
theorem decodeFrame_pickSelected_ok {row : FrameRow} {l rest : List Byte} {i : Instr}
    (h : decodeFrame (pickSelected row) l = .ok (i, rest)) :
    i.wellFormed = true ∧ row.select :: l = encode i ++ rest := by
  obtain ⟨row', f0, w, c, m, p, hp, rfl, hpick, rfl⟩ := decodeFrame_inv h
  unfold pickSelected at hpick
  split at hpick
  · next hadmits =>
    cases hpick
    obtain rfl := row.admits_sync hadmits
    rw [FrameRow.encode_instr ((row.admits_iff ..).mp hadmits)]
    exact ⟨row.instr_wellFormed w c m hp, rfl⟩
  · cases hpick

/-- Settles O58: by the first byte, a bare header, a select code (`decodeOp_ok`) or a FRAME row's selector
(`decodeFrame_pickSelected_ok`). -/
theorem encodeOfDecode : Obligations.EncodeOfDecode := by
  intro bytes i rest h
  match bytes with
  | [] => cases h
  | b :: r =>
    by_cases hsync : b = sync
    · subst hsync
      rw [decode_bare] at h
      obtain ⟨row, f0, w, c, m, p, hp, rfl, -⟩ := decodeFrame_inv h
      exact ⟨row.instr_wellFormed w c m hp, fun hhead => absurd rfl hhead⟩
    · rw [decode, if_neg hsync] at h
      split at h
      · have hop := decodeOp_ok h
        rw [BitVec.ofNat_toNat, BitVec.setWidth_eq] at hop
        exact ⟨hop.1, fun _ => hop.2⟩
      · split at h
        · next row hrow =>
          obtain ⟨hwf, hbytes⟩ := decodeFrame_pickSelected_ok h
          exact ⟨hwf, fun _ => row.select_ofSelect hrow ▸ hbytes⟩
        · cases h

/-! A bare header, rules R79, R92. -/

/-- The row a bare header is read as: a catalogue type under PCW, its CLASSIFY row under another word, else FRAME.ANY. -/
def bareRow (w : Word16) (c m : Byte) : FrameRow :=
  if c = catInventory ∧ m = midTagReport then (if w = pcw then .tagReport else .tagReportClassify)
  else if c = catInventory ∧ m = midStart then (if w = pcw then .startInventory else .startInventoryClassify)
  else if c = catInventory ∧ m = midWriteEpc then (if w = pcw then .writeEpcCmd else .writeEpcClassify)
  else if c = catInventory ∧ m = midStop then (if w = pcw then .stopInventory else .stopInventoryClassify)
  else .any

/-- Rule R79: of the rows in `bareRows` order, `bareRow` is the first the header is of: `admits_iff` tells of each row
before it that the header is not of it. -/
theorem pickBare_eq (w : Word16) (c m hi lo : Byte) :
    pickBare [sync, hi8 w, lo8 w, c, m, hi, lo] = .ok (bareRow w c m) := by
  have hfind : bareRows.find? (·.admits [sync, hi8 w, lo8 w, c, m, hi, lo]) = some (bareRow w c m) := by
    unfold bareRow
    split_ifs <;> simp_all [bareRows, List.find?_cons_of_pos, List.find?_cons_of_neg, FrameRow.admits_iff,
      FrameRow.Fields]
  rw [pickBare, hfind]

/-- Rule R12: a 2-byte field from its bytes in numbers. -/
theorem ofNat_eq_be16 (hi lo : Byte) : BitVec.ofNat 16 (hi.toNat * 256 + lo.toNat) = be16 hi lo := by
  rw [← be16_toNat, BitVec.ofNat_toNat, BitVec.setWidth_eq]

/-- Settles O59: the header picks `bareRow` (`pickBare_eq`), and the payload it declares is read (`decodeFrame_ok`). -/
theorem bareHeaderByPattern : Obligations.BareHeaderByPattern := by
  intro w0 w1 c m hi lo p rest hlen w
  have hw : w = be16 w0 w1 := ofNat_eq_be16 w0 w1
  have hdecl : BitVec.ofNat 16 p.length = be16 hi lo := by rw [hlen, ofNat_eq_be16]
  have hp : p.length ≤ 65535 := by omega
  have hread := decodeFrame_ok (w := w) (c := c) (m := m) (rest := rest) hp (pickBare_eq w c m _ _)
  rw [hdecl, hi8_be16, lo8_be16, hw, hi8_be16, lo8_be16, ← hw] at hread
  have hbytes : [0x5A#8, w0, w1, c, m, hi, lo] ++ p ++ rest = sync :: w0 :: w1 :: c :: m :: hi :: lo :: (p ++ rest) :=
    List.append_assoc ..
  rw [hbytes, decode_bare, hread]
  unfold bareRow
  split_ifs <;> rfl

/-- Settles O60: each word's bytes are decoded. -/
theorem tableWordsDecode : Obligations.TableWordsDecode := by
  unfold Obligations.TableWordsDecode
  decide +kernel

end Sys2Proof
end

section
/-! PROOF. The laws of COMPUTE, 40_crc16.md rule R105 (a) to (d). -/

namespace Sys2Proof.Machine

/-- Rule R105 (b): a register of zero stays zero over zero bytes. -/
theorem crcOf_replicate_zero_append (n : Nat) (b : List Byte) : crcOf (List.replicate n 0x00#8 ++ b) = crcOf b := by
  induction n with
  | zero => rfl
  | succ n ih => exact ih

theorem exec_crcCompute (bytes : List Byte) (s : State) :
    exec (.crcCompute bytes) s = .next ((s.setCrc (crcOf bytes)).emit (.crc (crcOf bytes))) := rfl

/-- Settles O5: `crcOf` folds over an append, and leading zero bytes leave CRC_INIT as it is. -/
theorem crcIncrementalAndLeadingZeros : Obligations.CrcIncrementalAndLeadingZeros := by
  intro a b n s
  refine ⟨_, _, _, _, _, exec_crcCompute a s, runOps_crcBytes b _, exec_crcCompute (a ++ b) s, ?_,
    exec_crcCompute _ s, exec_crcCompute b s, ?_⟩
  · exact crcOf_append a b
  · rw [crcOf_replicate_zero_append]

/-- Rule R105 (c), from any two registers. -/
theorem foldl_crcAdd_xorBytes {a b : List Byte} (hlen : a.length = b.length) (c d : Word16) :
    (xorBytes a b).foldl crcAdd (c ^^^ d) = a.foldl crcAdd c ^^^ b.foldl crcAdd d := by
  induction a generalizing b c d with
  | nil =>
    obtain rfl := List.length_eq_zero_iff.mp hlen.symm
    rfl
  | cons x a ih =>
    obtain ⟨y, b, rfl⟩ := List.exists_cons_of_length_eq_add_one hlen.symm
    have hstep := ih (b := b) (by simpa using hlen) (crcAdd c x) (crcAdd d y)
    rwa [← crcAdd_xor] at hstep

theorem crcOf_xorBytes {a b : List Byte} (hlen : a.length = b.length) :
    crcOf (xorBytes a b) = crcOf a ^^^ crcOf b := foldl_crcAdd_xorBytes hlen crcInit crcInit

/-- Settles O6: `crcOf_xorBytes`, and the residue of `crcOf_append_crcOf`. -/
theorem crcLinearAndResidueZero : Obligations.CrcLinearAndResidueZero := by
  refine ⟨fun a b hlen => crcOf_xorBytes hlen, fun l s => ⟨_, _, exec_crcCompute l s, exec_crcCompute _ s, ?_⟩⟩
  rw [State.emit_crc, State.setCrc_crc, State.emit_crc, State.setCrc_crc, ← bytes16_toNat, crcOf_append_crcOf]

end Sys2Proof.Machine
end

section
/-! PROOF. Error bursts, 40_crc16.md rule R105 (e): a nonzero pattern within 16 consecutive bits is a nonzero register
value times a power of x, so its CRC is not zero. -/

namespace Sys2Proof.Machine

open Polynomial

/-! A byte sequence as a polynomial, bit by bit. -/

theorem wireBit_concat_of_lt {l : List Byte} (b : Byte) {j : Nat} (h : j < 8 * l.length) :
    wireBit (l ++ [b]) j = wireBit l j := by
  rw [wireBit, memRead1_append (by omega), wireBit]

/-- Rule R54: the last byte of a sequence holds its last eight wire bits, bit 7 first. -/
theorem wireBit_concat_last (l : List Byte) (b : Byte) {k : Nat} (h : k < 8) :
    wireBit (l ++ [b]) (8 * l.length + (7 - k)) = b.getLsbD k := by
  have hbyte : (8 * l.length + (7 - k)) / 8 = l.length + 0 := by omega
  have hbit : (8 * l.length + (7 - k)) % 8 = 7 - k := by omega
  rw [wireBit, hbyte, hbit, memRead1_skip rfl]
  change b.getMsbD (7 - k) = b.getLsbD k
  rw [BitVec.getMsbD_eq_getLsbD, show 8 - 1 - (7 - k) = k by omega, decide_eq_true (by omega), Bool.true_and]

theorem wireBit_of_length_le {l : List Byte} {j : Nat} (h : 8 * l.length ≤ j) : wireBit l j = false := by
  have hout : l.length ≤ j / 8 := by omega
  have hread : memRead1 l (j / 8) = 0#8 := List.getD_eq_default _ _ hout
  rw [wireBit, hread, BitVec.getMsbD_zero]

theorem getLsbD_setWidth_sixteen (b : Byte) (i : Nat) : (b.setWidth 16).getLsbD i = b.getLsbD i := by
  rw [BitVec.getLsbD_setWidth]
  by_cases hi : i < 16
  · rw [decide_eq_true hi, Bool.true_and]
  · rw [BitVec.getLsbD_of_ge b i (by omega), Bool.and_false]

/-- One byte more shifts the coefficients by eight; the byte's own bits are the low eight. -/
theorem coeff_gfBytes_concat (l : List Byte) (b : Byte) (i : Nat) :
    (gfBytes (l ++ [b])).coeff i = if 8 ≤ i then (gfBytes l).coeff (i - 8) else if b.getLsbD i then 1 else 0 := by
  rw [gfBytes_concat, coeff_add, coeff_mul_X_pow', coeff_gfPoly, getLsbD_setWidth_sixteen]
  by_cases hi : 8 ≤ i
  · rw [if_pos hi, if_pos hi, BitVec.getLsbD_of_ge b i hi, if_neg Bool.false_ne_true, add_zero]
  · rw [if_neg hi, if_neg hi, zero_add]

theorem coeff_gfBytes_of_length_le {l : List Byte} {i : Nat} (h : 8 * l.length ≤ i) : (gfBytes l).coeff i = 0 := by
  induction l using List.reverseRecOn generalizing i with
  | nil => exact coeff_zero i
  | append_singleton l b ih =>
    rw [List.length_append, List.length_singleton] at h
    rw [coeff_gfBytes_concat, if_pos (by omega), ih (by omega)]

/-- Rule R108: the coefficient of x^i is the wire bit with `i` wire bits after it. -/
theorem coeff_gfBytes {l : List Byte} {i j : Nat} (h : j + 1 + i = 8 * l.length) :
    (gfBytes l).coeff i = if wireBit l j then 1 else 0 := by
  induction l using List.reverseRecOn generalizing i with
  | nil =>
    rw [List.length_nil] at h
    omega
  | append_singleton l b ih =>
    rw [List.length_append, List.length_singleton] at h
    rw [coeff_gfBytes_concat]
    by_cases hi : 8 ≤ i
    · rw [if_pos hi, ih (by omega), wireBit_concat_of_lt b (by omega)]
    · rw [if_neg hi, show j = 8 * l.length + (7 - i) by omega, wireBit_concat_last l b (Nat.lt_of_not_le hi)]

/-! The pattern as a register value. -/

/-- The 16 wire bits from place `j0` on, the first in bit 15. -/
def burstWord (e : List Byte) (j0 : Nat) : Word16 := BitVec.ofFnLE fun i => wireBit e (j0 + (15 - i.val))

theorem burstWord_getLsbD (e : List Byte) (j0 : Nat) {k : Nat} (hk : k < 16) :
    (burstWord e j0).getLsbD k = wireBit e (j0 + (15 - k)) := by
  rw [burstWord, BitVec.getLsbD_ofFnLE, dif_pos hk]

/-- A pattern whose set bits lie in the 16 places from `j0` on, with `t` places after them. -/
theorem gfBytes_eq_X_pow_mul {e : List Byte} {j0 t : Nat} (hlen : j0 + 16 + t = 8 * e.length)
    (hwin : ∀ j, wireBit e j = true → j0 ≤ j ∧ j < j0 + 16) : gfBytes e = X ^ t * gfPoly (burstWord e j0) := by
  have hout : ∀ j, ¬ (j0 ≤ j ∧ j < j0 + 16) → wireBit e j = false := fun j hj =>
    Bool.eq_false_iff.mpr fun hbit => hj (hwin j hbit)
  ext i
  rw [coeff_X_pow_mul', coeff_gfPoly]
  by_cases hi : 8 * e.length ≤ i
  · rw [coeff_gfBytes_of_length_le hi, if_pos (by omega), BitVec.getLsbD_of_ge _ _ (by omega),
      if_neg Bool.false_ne_true]
  · rw [coeff_gfBytes (j := 8 * e.length - 1 - i) (by omega)]
    by_cases ht : t ≤ i
    · rw [if_pos ht]
      by_cases hword : i - t < 16
      · rw [burstWord_getLsbD e j0 hword, show j0 + (15 - (i - t)) = 8 * e.length - 1 - i by omega]
      · rw [BitVec.getLsbD_of_ge _ _ (Nat.le_of_not_lt hword), hout _ (by omega)]
    · rw [if_neg ht, hout _ (by omega), if_neg Bool.false_ne_true]

theorem gfPoly_injective {v v' : Word16} (h : gfPoly v = gfPoly v') : v = v' := by
  have hbit : ∀ x y : Bool, (if x then 1 else 0 : ZMod 2) = (if y then 1 else 0) → x = y := by decide
  apply BitVec.eq_of_getLsbD_eq
  intro i _
  apply hbit
  rw [← coeff_gfPoly, ← coeff_gfPoly, h]

/-- A register value is known by its class: its degree is below the generator's. -/
theorem gfClass_gfPoly_injective {v v' : Word16} (h : gfClass (gfPoly v) = gfClass (gfPoly v')) : v = v' :=
  gfPoly_injective ((gfPoly_eq_modByMonic rfl).trans (gfPoly_eq_modByMonic h).symm)

/-- COMPUTE of a register value followed by `t` zero places is that many steps and 16 more. -/
theorem crcOf_eq_crcSteps {e : List Byte} {v : Word16} {t : Nat} (h : gfBytes e = X ^ t * gfPoly v) :
    crcOf e = crcSteps (t + 16) v := by
  apply gfClass_gfPoly_injective
  rw [← gfClass_crcOf, ← gfClass_crcSteps, h, pow_add, mul_right_comm]

/-- A window of 16 places can be moved back into the sequence: no bit is set beyond its end. -/
theorem burst16_window {e : List Byte} (he : burst16 e) (hlen : 2 ≤ e.length) :
    ∃ j0 t, j0 + 16 + t = 8 * e.length ∧ ∀ j, wireBit e j = true → j0 ≤ j ∧ j < j0 + 16 := by
  obtain ⟨-, j0, hwin⟩ := he
  refine ⟨min j0 (8 * e.length - 16), 8 * e.length - 16 - min j0 (8 * e.length - 16), by omega, fun j hj => ?_⟩
  have hin : j < 8 * e.length := by
    by_contra hge
    rw [wireBit_of_length_le (Nat.le_of_not_lt hge)] at hj
    cases hj
  have := hwin j hj
  omega

/-- Rule R105 (e): the steps can be undone, so a nonzero burst leaves a nonzero register. -/
theorem crcOf_burst_ne_zero {e : List Byte} (he : burst16 e) (hlen : 2 ≤ e.length) : crcOf e ≠ 0x0000#16 := by
  obtain ⟨j0, t, hplaces, hwin⟩ := burst16_window he hlen
  obtain ⟨⟨j, hj⟩, -⟩ := he
  intro hzero
  rw [crcOf_eq_crcSteps (gfBytes_eq_X_pow_mul hplaces hwin)] at hzero
  have hword : burstWord e j0 = 0#16 := crcSteps_eq_zero _ hzero
  obtain ⟨hlow, hhigh⟩ := hwin j hj
  have hbit := burstWord_getLsbD e j0 (k := 15 - (j - j0)) (by omega)
  rw [hword, show j0 + (15 - (15 - (j - j0))) = j by omega, hj, BitVec.getLsbD_zero] at hbit
  cases hbit

/-! The burst on an encoded frame. -/

theorem crcOf_wireFrame_tail (w : Word16) (c m : Byte) (p : List Byte) :
    crcOf (frameBody w c m p ++ bytes16 (crcOf (frameBody w c m p))) = 0x0000#16 := crcOf_append_crcOf _

/-- An error pattern that turns one frame into another has CRC zero. -/
theorem crcOf_error_eq_zero {w w' : Word16} {c m c' m' : Byte} {p p' e : List Byte}
    (hlen : e.length = 9 + p.length) (h : xorBytes (wireFrame w c m p) e = wireFrame w' c' m' p') :
    crcOf e = 0x0000#16 := by
  obtain ⟨x, e, rfl⟩ := List.exists_cons_of_length_eq_add_one (hlen.trans (Nat.add_right_comm 8 1 _))
  rw [wireFrame_eq_candidate, wireFrame_eq_candidate, candidate, candidate, xorBytes, List.zipWith_cons_cons] at h
  obtain ⟨hsync, htail⟩ := List.cons.inj h
  have hx : x = 0#8 := by simpa using hsync
  have hsame : (frameBody w c m p ++ bytes16 (crcOf (frameBody w c m p))).length = e.length := by
    rw [List.length_cons] at hlen
    rw [List.length_append, frameBody_length, bytes16_length]
    omega
  have hcrc := crcOf_xorBytes hsame
  rw [xorBytes, htail, crcOf_wireFrame_tail, crcOf_wireFrame_tail, BitVec.zero_xor] at hcrc
  rw [hx]
  exact hcrc.symm

/-- Settles O8: a slice that decodes is a frame (`eq_wireFrame_of_decodeSlice`), so the pattern would have CRC zero
(`crcOf_error_eq_zero`), which a burst has not (`crcOf_burst_ne_zero`). -/
theorem burstErrorsNeverDecode : Obligations.BurstErrorsNeverDecode := by
  intro c m p e s hp hlen hburst
  refine ⟨_, _, frameEncode_fits s hp, rfl, fun fr hok => ?_⟩
  obtain ⟨-, w, hframe⟩ := eq_wireFrame_of_decodeSlice hok
  exact crcOf_burst_ne_zero hburst (by omega) (crcOf_error_eq_zero hlen hframe)

end Sys2Proof.Machine
end

section
/-! PROOF. What operations do not depend on: an update of the state that an operation can neither see nor undo commutes
with it (rules R31, R65, R245). -/

namespace Sys2Proof.Machine

/-- An update of the state no emission sees: it keeps the straps and commutes with one more returned value. -/
structure Unseen (f : State → State) : Prop where
  straps : ∀ s, (f s).straps = s.straps
  emit : ∀ s r, f (s.emit r) = (f s).emit r

/-- It keeps the buffer, whatever is written to it. -/
structure UnseenBuf (f : State → State) : Prop where
  buf : ∀ s, (f s).buf = s.buf
  setBuf : ∀ s b, f (s.setBuf b) = (f s).setBuf b

/-- It keeps the CRC register, whatever is written to it. -/
structure UnseenCrc (f : State → State) : Prop where
  crc : ∀ s, (f s).crc = s.crc
  setCrc : ∀ s v, f (s.setCrc v) = (f s).setCrc v

/-- The outcome with its next state updated. -/
def mapNext (f : State → State) : Outcome → Outcome
  | .next t => .next (f t)
  | .fault r => .fault r
  | .refused r => .refused r

section Commutes
variable {f : State → State} (hf : Unseen f) (s : State)
include hf

theorem returnFrame_mapNext (c m : Byte) (p : List Byte) :
    returnFrame c m p (f s) = mapNext f (returnFrame c m p s) := by
  unfold returnFrame
  split
  · exact congrArg Host.Outcome.next (hf.emit s _).symm
  · rfl

theorem transmit_mapNext (m : Byte) (layout : Layout) (p : List Byte) :
    transmit m layout p (f s) = mapNext f (transmit m layout p s) := by
  unfold transmit
  split
  · rfl
  · exact congrArg Host.Outcome.next (hf.emit s _).symm

theorem execInvStart_mapNext (ids : List Nat) (continuous : Bool) :
    execInvStart ids continuous (f s) = mapNext f (execInvStart ids continuous s) := by
  unfold execInvStart
  split
  · exact returnFrame_mapNext hf s _ _ _
  · rfl

theorem execEpcwBuild_mapNext (old new : List Char) (id : Nat) (pw : Word32) :
    execEpcwBuild old new id pw (f s) = mapNext f (execEpcwBuild old new id pw s) := by
  simp only [execEpcwBuild, hf.straps]
  split_ifs
  · rfl
  · rfl
  · exact congrArg Host.Outcome.next (hf.emit s _).symm
  · exact returnFrame_mapNext hf s _ _ _
  · rfl
  · rfl

variable (hbuf : UnseenBuf f)
include hbuf

theorem feed_mapNext (new : List Byte) : feed new (f s) = mapNext f (feed new s) := by
  simp only [feed, hf.straps, hbuf.buf]
  split_ifs
  · rfl
  · rw [mapNext, hf.emit, hbuf.setBuf]

theorem receive_mapNext (w : Word16) (c m : Byte) (p : List Byte) :
    receive w c m p (f s) = mapNext f (receive w c m p s) := by
  unfold receive
  split_ifs
  · rfl
  · exact feed_mapNext hf s hbuf _

theorem receiveClassified_mapNext (w : Word16) (c m : Byte) (p : List Byte) :
    receiveClassified w c m p (f s) = mapNext f (receiveClassified w c m p s) := by
  simp only [receiveClassified, hf.straps, hbuf.buf]
  split_ifs
  · rfl
  · rfl
  · rw [mapNext, hf.emit, hf.emit, hbuf.setBuf]

end Commutes

/-- Once for all instructions: an operation commutes with an update it does not see: of the buffer only where it works
on the buffer, of the CRC register only where it works on the register. -/
theorem exec_mapNext {f : State → State} (hf : Unseen f) {i : Instr} (hbuf : i.touchesBuf = true → UnseenBuf f)
    (hcrc : i.touchesCrc = true → UnseenCrc f) (s : State) : exec i (f s) = mapNext f (exec i s) := by
  have hemit : ∀ r, (.next ((f s).emit r) : Outcome) = mapNext f (.next (s.emit r)) := fun r =>
    congrArg Host.Outcome.next (hf.emit s r).symm
  cases i with
  | reset => simp only [exec, execReset, mapNext, (hcrc rfl).setCrc, (hbuf rfl).setBuf]
  | crcClear => simp only [exec, execCrcClear, mapNext, (hcrc rfl).setCrc]
  | crcBit => simp only [exec, execCrcBit, mapNext, (hcrc rfl).setCrc, (hcrc rfl).crc]
  | crcByte b => simp only [exec, execCrcByte, mapNext, (hcrc rfl).setCrc, (hcrc rfl).crc]
  | crcCompute l => simp only [exec, execCrcCompute, mapNext, hf.emit, (hcrc rfl).setCrc]
  | frameEncode c m p => exact returnFrame_mapNext hf s c m p
  | frameDecode l => exact hemit _
  | frameTryDecode b =>
    simp only [exec, execFrameTryDecode, hf.straps]
    exact hemit _
  | rxFeed l => exact feed_mapNext hf s (hbuf rfl) l
  | rxByte b => exact feed_mapNext hf s (hbuf rfl) [b]
  | invStart ids c => exact execInvStart_mapNext hf s ids c
  | invStop => exact returnFrame_mapNext hf s catInventory midStop []
  | tagParse p => exact hemit _
  | epcwBuild old new id pw => exact execEpcwBuild_mapNext hf s old new id pw
  | wresParse p => exact hemit _
  | unassigned => rfl
  | frameAny w c m p => exact receive_mapNext hf s (hbuf rfl) w c m p
  | tagReport p | writeEpcRsp p => exact receiveClassified_mapNext hf s (hbuf rfl) _ _ _ p
  | startInventory p | stopInventory p => exact transmit_mapNext hf s _ _ p
  | writeEpcCmd p =>
    simp only [exec, execWriteEpcCmd, hf.straps]
    exact transmit_mapNext hf s _ _ p
  | tagReportClassify w p | startInventoryClassify w p | writeEpcClassify w p | stopInventoryClassify w p =>
    exact receiveClassified_mapNext hf s (hbuf rfl) w _ _ p

/-! The three updates of the statements. -/

theorem unseen_setCrc (v : Word16) : Unseen (·.setCrc v) := ⟨fun _ => rfl, fun _ _ => rfl⟩

theorem unseenBuf_setCrc (v : Word16) : UnseenBuf (·.setCrc v) := ⟨fun _ => rfl, fun _ _ => rfl⟩

theorem unseen_setBuf (b : List Byte) : Unseen (·.setBuf b) := ⟨fun _ => rfl, fun _ _ => rfl⟩

theorem unseenCrc_setBuf (b : List Byte) : UnseenCrc (·.setBuf b) := ⟨fun _ => rfl, fun _ _ => rfl⟩

/-- The state with other values returned before its own, and other requests pending (rule R245). -/
def State.withCaller (past : List Result) (future : List Byte) (s : State) : State :=
  { s with results := past ++ s.results, requests := future }

section WithCaller
variable (past : List Result) (future : List Byte)

theorem unseen_withCaller : Unseen (State.withCaller past future) :=
  ⟨fun _ => rfl, fun s r => by simp only [State.withCaller, State.emit, List.append_assoc]⟩

theorem unseenBuf_withCaller : UnseenBuf (State.withCaller past future) := ⟨fun _ => rfl, fun _ _ => rfl⟩

theorem unseenCrc_withCaller : UnseenCrc (State.withCaller past future) := ⟨fun _ => rfl, fun _ _ => rfl⟩

theorem exec_withCaller (i : Instr) (s : State) :
    exec i (s.withCaller past future) = mapNext (State.withCaller past future) (exec i s) :=
  exec_mapNext (unseen_withCaller past future) (fun _ => unseenBuf_withCaller past future)
    (fun _ => unseenCrc_withCaller past future) s

end WithCaller

/-- Rule R31: the operations that write the register without reading it forget what it held. -/
theorem exec_setCrc_of_touchesCrc {i : Instr} (hreads : i.readsCrc = false) (htouch : i.touchesCrc = true) (s : State)
    (v : Word16) : exec i (s.setCrc v) = exec i s := by
  cases i with
  | reset | crcClear | crcCompute => rfl
  | crcBit | crcByte => cases hreads
  | _ => cases htouch

/-- Settles O9: an operation that writes the register forgets it (`exec_setCrc_of_touchesCrc`), and one that does not
write it commutes with another value in it (`exec_mapNext`). -/
theorem crcRegisterIsScratch : Obligations.CrcRegisterIsScratch := by
  intro i s v hreads
  change (∀ t, exec i s = .next t → exec i (s.setCrc v) = .next (t.setCrc (if i.touchesCrc then t.crc else v))) ∧
    ∀ r, exec i s = .refused r → exec i (s.setCrc v) = .refused r
  cases htouch : i.touchesCrc with
  | true =>
    rw [exec_setCrc_of_touchesCrc hreads htouch]
    exact ⟨fun t h => h, fun r h => h⟩
  | false =>
    rw [exec_mapNext (unseen_setCrc v) (fun _ => unseenBuf_setCrc v) (by simp [htouch])]
    exact ⟨fun t h => by rw [h]; rfl, fun r h => by rw [h]; rfl⟩

/-- Settles O49: an operation that does not touch the buffer commutes with another buffer (`exec_mapNext`). -/
theorem transmitIgnoresReceive : Obligations.TransmitIgnoresReceive := by
  intro i s b htouch
  change (∀ t, exec i s = .next t → exec i (s.setBuf b) = .next (t.setBuf b)) ∧
    ∀ r, exec i s = .refused r → exec i (s.setBuf b) = .refused r
  rw [exec_mapNext (unseen_setBuf b) (by simp [htouch]) (fun _ => unseenCrc_setBuf b)]
  exact ⟨fun t h => by rw [h]; rfl, fun r h => by rw [h]; rfl⟩

/-- Settles O50: both states are the one with nothing returned, seen by another caller (`exec_withCaller`). -/
theorem pastAndFutureHaveNoInfluence : Obligations.PastAndFutureHaveNoInfluence := by
  intro i s past future
  obtain ⟨s₀, hs₀⟩ : ∃ s₀ : State, s₀ = { s with results := [] } := ⟨_, rfl⟩
  have hs : s = s₀.withCaller s.results s.requests := by rw [hs₀, State.withCaller, List.append_nil]
  have hs' : { s with results := past, requests := future } = s₀.withCaller past future := by
    rw [hs₀, State.withCaller, List.append_nil]
  have hexec : exec i s = mapNext (State.withCaller s.results s.requests) (exec i s₀) := by
    conv_lhs => rw [hs]
    exact exec_withCaller _ _ i s₀
  rw [hs', exec_withCaller, hexec]
  cases exec i s₀ with
  | next t₀ =>
    refine ⟨fun t l h hl => ?_, nofun⟩
    cases h
    rw [← List.append_cancel_left hl]
    rfl
  | fault r => exact ⟨nofun, nofun⟩
  | refused r => exact ⟨nofun, fun r' h => h⟩

end Sys2Proof.Machine
end

section
/-! PROOF. Refusals, 60_exceptions.md rule R212: an operation is refused exactly where the spec refuses it. -/

namespace Sys2Proof.Machine

/-- An outcome is a refusal exactly under a condition, and a next state otherwise. -/
def RefusedIff (o : Outcome) (bad : Prop) : Prop := (bad → ∃ r, o = .refused r) ∧ (¬ bad → ∃ t, o = .next t)

theorem refusedIff_next {t : State} {bad : Prop} (h : ¬ bad) : RefusedIff (.next t) bad :=
  ⟨fun hbad => absurd hbad h, fun _ => ⟨t, rfl⟩⟩

theorem refusedIff_refused {r : Refusal} {bad : Prop} (h : bad) : RefusedIff (.refused r) bad :=
  ⟨fun _ => ⟨r, rfl⟩, fun hgood => absurd h hgood⟩

theorem RefusedIff.congr {o : Outcome} {bad bad' : Prop} (h : RefusedIff o bad) (hiff : bad ↔ bad') :
    RefusedIff o bad' := by
  rwa [RefusedIff, ← hiff]

section
variable {s : State}

theorem returnFrame_refusedIff (c m : Byte) (p : List Byte) : RefusedIff (returnFrame c m p s) (65535 < p.length) :=
  ⟨fun hlong => ⟨_, returnFrame_long hlong⟩, fun hfits => ⟨_, returnFrame_fits (Nat.le_of_not_lt hfits)⟩⟩

theorem transmit_refusedIff (m : Byte) (layout : Layout) (p : List Byte) :
    RefusedIff (transmit m layout p s) (65535 < p.length) :=
  ⟨fun hlong => ⟨_, transmit_long hlong⟩, fun hfits => ⟨_, transmit_fits (Nat.le_of_not_lt hfits)⟩⟩

theorem feed_refusedIff (new : List Byte) : RefusedIff (feed new s) (¬ s.roomFor new.length) :=
  ⟨fun hfull => ⟨_, feed_full hfull⟩, fun hroom => ⟨_, feed_room (Classical.not_not.mp hroom)⟩⟩

theorem receive_refusedIff (w : Word16) (c m : Byte) (p : List Byte) :
    RefusedIff (receive w c m p s) (65535 < p.length ∨ ¬ s.roomFor (9 + p.length)) := by
  refine ⟨receive_refused, fun hgood => ?_⟩
  obtain ⟨hfits, hroom⟩ := not_or.mp hgood
  rw [receive_fits (Nat.le_of_not_lt hfits)]
  exact ⟨_, feed_room (by rw [wireFrame_length]; exact Classical.not_not.mp hroom)⟩

theorem receiveClassified_refusedIff (w : Word16) (c m : Byte) (p : List Byte) :
    RefusedIff (receiveClassified w c m p s) (65535 < p.length ∨ ¬ s.roomFor (9 + p.length)) := by
  refine ⟨receiveClassified_refused, fun hgood => ?_⟩
  obtain ⟨hfits, hroom⟩ := not_or.mp hgood
  exact ⟨_, receiveClassified_room (Nat.le_of_not_lt hfits) (Classical.not_not.mp hroom)⟩

theorem execInvStart_refusedIff (ids : List Nat) (continuous : Bool) :
    RefusedIff (execInvStart ids continuous s) (∃ id ∈ ids, id < 1 ∨ 4 < id) := by
  by_cases hids : ∀ id ∈ ids, 1 ≤ id ∧ id ≤ 4
  · rw [execInvStart, if_pos (antennaIds_all.mpr hids), returnFrame_fits (by simp)]
    refine refusedIff_next ?_
    rintro ⟨id, hid, hout⟩
    have := hids id hid
    omega
  · rw [execInvStart, if_neg (antennaIds_all.not.mpr hids)]
    refine refusedIff_refused ?_
    push Not at hids
    obtain ⟨id, hid, hout⟩ := hids
    exact ⟨id, hid, by omega⟩

/-- EPCW.BUILD's tests in rule R179's order. -/
theorem execEpcwBuild_refusedIff (old new : List Char) (id : Nat) (pw : Word32) :
    RefusedIff (execEpcwBuild old new id pw s) ((Instr.epcwBuild old new id pw).refusedBySpec s) := by
  unfold Instr.refusedBySpec
  by_cases hhex : ∃ c ∈ old ++ new, ¬ isHexDigit c
  · rw [epcwBuild_notHex hhex]
    exact refusedIff_refused (.inl hhex)
  have hdigits : ∀ c ∈ old ++ new, isHexDigit c := fun c hc => by_contra fun hnot => hhex ⟨c, hc, hnot⟩
  by_cases hold : old.length % 2 = 0
  swap
  · rw [epcwBuild_oddOld hdigits hold]
    exact refusedIff_refused (.inr (.inl (by omega)))
  by_cases hid : 1 ≤ id ∧ id ≤ 4
  swap
  · rw [epcwBuild_badId hdigits hold hid]
    exact refusedIff_refused (.inr (.inr (by omega)))
  by_cases hnew : new.length % 4 = 0
  swap
  · rw [epcwBuild_newLength hdigits hold hid hnew]
    refine refusedIff_next ?_
    rintro (h | h | h | h | ⟨h, -⟩)
    · exact hhex h
    all_goals omega
  rw [epcwBuild_build hdigits hold hid hnew]
  by_cases hbits : old.length / 2 * 8 < 256 ^ s.straps.bitlenSize.bytes
  · rw [if_pos hbits]
    refine (returnFrame_refusedIff _ _ _).congr ?_
    rw [writeEpcPayload_length, bytesOfHex_length, bytesOfHex_length]
    refine ⟨fun hlong => .inr (.inr (.inr (.inr ⟨hnew, .inr hlong⟩))), ?_⟩
    rintro (h | h | h | h | ⟨-, h | h⟩)
    · exact absurd h hhex
    all_goals omega
  · rw [if_neg hbits]
    exact refusedIff_refused (.inr (.inr (.inr (.inr ⟨hnew, .inl (Nat.le_of_not_lt hbits)⟩))))

end

/-- Settles O51: row by row, by the lemma of the row's shared operation. -/
theorem refusalsAreExactlyTheSpecs : Obligations.RefusalsAreExactlyTheSpecs := by
  intro i s
  change RefusedIff (exec i s) (i.refusedBySpec s)
  cases i with
  | reset | crcClear | crcBit | crcByte | crcCompute | frameDecode | frameTryDecode | tagParse | wresParse =>
    exact refusedIff_next id
  | frameEncode c m p => exact returnFrame_refusedIff c m p
  | rxFeed l => exact feed_refusedIff l
  | rxByte b => exact feed_refusedIff [b]
  | invStart ids continuous => exact execInvStart_refusedIff ids continuous
  | invStop => exact refusedIff_next id
  | epcwBuild old new id pw => exact execEpcwBuild_refusedIff old new id pw
  | unassigned => exact refusedIff_refused trivial
  | frameAny w c m p => exact receive_refusedIff w c m p
  | startInventory p | writeEpcCmd p | stopInventory p => exact transmit_refusedIff _ _ p
  | tagReport p | writeEpcRsp p => exact receiveClassified_refusedIff _ _ _ p
  | tagReportClassify w p | startInventoryClassify w p | writeEpcClassify w p | stopInventoryClassify w p =>
    exact receiveClassified_refusedIff w _ _ p

end Sys2Proof.Machine
end

section
/-! PROOF. FRAME.DECODE and FRAME.TRYDECODE case by case, and the payloads that cannot be framed, 41_frame_codec.md
rules R122, R124 to R126. -/

namespace Sys2Proof.Machine

/-! Payloads over 65535 bytes, rule R122. -/

theorem eq_wireFrame_of_returnFrame {c m : Byte} {p f : List Byte} {s : State}
    (h : returnFrame c m p s = .next (s.emit (.frame f))) : f = wireFrame pcw c m p := by
  by_cases hp : p.length ≤ 65535
  · exact eq_wireFrame_of_frameEncode hp h
  · rw [returnFrame_long (Nat.lt_of_not_le hp)] at h
    cases h

theorem eq_wireFrame_of_transmit {m : Byte} {layout layout' : Layout} {p f : List Byte} {s : State}
    (h : transmit m layout p s = .next (s.emit (.sent f layout'))) : f = wireFrame pcw catInventory m p := by
  by_cases hp : p.length ≤ 65535
  · rw [transmit_fits hp] at h
    exact (Result.sent.inj (emit_inj.mp (Host.Outcome.next.inj h))).1.symm
  · rw [transmit_long (Nat.lt_of_not_le hp)] at h
    cases h

/-- A frame carries its payload whole (rule R71). -/
theorem carries_payload_of_eq_wireFrame {w : Word16} {c m : Byte} {p f : List Byte} (h : f = wireFrame w c m p) :
    f.length = 9 + p.length ∧ (f.drop 7).take p.length = p := by
  rw [h]
  exact ⟨wireFrame_length .., wireFrame_payload ..⟩

/-- Each outbound FRAME row is one `transmit` of its payload. -/
theorem exec_outbound {p : List Byte} {i : Instr} (s : State)
    (hi : i ∈ [Instr.startInventory p, .writeEpcCmd p, .stopInventory p]) :
    ∃ m layout, exec i s = transmit m layout p s := by
  simp only [List.mem_cons, List.not_mem_nil, or_false] at hi
  obtain rfl | rfl | rfl := hi
  · exact ⟨_, _, rfl⟩
  · exact ⟨_, _, rfl⟩
  · exact ⟨_, _, rfl⟩

/-- Settles O13: whatever is returned or sent is a `wireFrame` of the payload, and a long payload is refused by
`returnFrame` and `transmit` both. -/
theorem noPayloadIsCutShort : Obligations.NoPayloadIsCutShort := by
  intro c m p f layout s
  refine ⟨fun h => carries_payload_of_eq_wireFrame (eq_wireFrame_of_returnFrame h), fun i hi h => ?_,
    fun hlong i hi => ?_⟩
  · obtain ⟨m', layout', hexec⟩ := exec_outbound s hi
    rw [hexec] at h
    exact carries_payload_of_eq_wireFrame (eq_wireFrame_of_transmit h)
  · obtain rfl | hout := List.mem_cons.mp hi
    · exact returnFrame_long hlong
    · obtain ⟨m', layout', hexec⟩ := exec_outbound s hout
      rw [hexec, transmit_long hlong]

/-! FRAME.DECODE, rule R124. -/

theorem exec_frameDecode (l : List Byte) (s : State) :
    exec (.frameDecode l) s = .next (s.emit (.decode (decodeSlice l))) := rfl

/-- Rule R124 with the length field and the CRC field as numbers. -/
theorem decodeSlice_reads (l : List Byte) :
    decodeSlice l =
      if l.length < 9 ∨ l.getD 0 0 ≠ 0x5A#8 ∨
          l.length ≠ 9 + ((l.getD 5 0).toNat * 256 + (l.getD 6 0).toNat) then .malformed
      else if (crcOf ((l.take (l.length - 2)).drop 1)).toNat =
          (l.getD (l.length - 2) 0).toNat * 256 + (l.getD (l.length - 1) 0).toNat then
        .ok ⟨l.getD 3 0, l.getD 4 0, (l.take (l.length - 2)).drop 7⟩
      else .crcMismatch := by
  have htotal : declaredTotal l = 9 + ((l.getD 5 0).toNat * 256 + (l.getD 6 0).toNat) :=
    congrArg (9 + ·) (be16_toNat _ _)
  by_cases hbad : l.length < 9 ∨ l.getD 0 0 ≠ 0x5A#8 ∨ l.length ≠ declaredTotal l
  · rw [← htotal, if_pos hbad, decodeSlice_eq_malformed]
    exact hbad
  · have hlast : l.length - 2 + 1 = l.length - 1 := by omega
    have hfield : crcOf (slice l 1 (l.length - 2)) = memRead2 l (l.length - 2) ↔
        (crcOf ((l.take (l.length - 2)).drop 1)).toNat =
          (l.getD (l.length - 2) 0).toNat * 256 + (l.getD (l.length - 1) 0).toNat := by
      rw [← BitVec.toNat_inj, memRead2, be16_toNat, hlast]
      rfl
    have hmal : ¬ (l.length < overhead ∨ memRead1 l 0 ≠ sync ∨ l.length ≠ declaredTotal l) := hbad
    simp only [decodeSlice, if_neg hmal, hfield]
    rw [← htotal, if_neg hbad]
    rfl

/-- Settles O15: FRAME.DECODE returns `decodeSlice`, here with plain reads (`decodeSlice_reads`). -/
theorem decodeOutcomeOfEverySlice : Obligations.DecodeOutcomeOfEverySlice := by
  intro l s t n
  rw [← decodeSlice_reads l]
  rfl

theorem memRead1_zero_eq_sync_iff {l : List Byte} : memRead1 l 0 = sync ↔ l.head? = some sync := by
  cases l with
  | nil => decide
  | cons x t => simp [memRead1]

/-- Settles O16: a slice cut at a sync byte is a candidate, whose CRC field alone decides; elsewhere
`decodeSlice_eq_malformed` names the three ways. -/
theorem malformedOnlyOutsideTheScan : Obligations.MalformedOnlyOutsideTheScan := by
  constructor
  · intro b hhead htotal
    obtain ⟨w, c, m, p, k, hp, hcand⟩ :=
      take_declaredTotal_eq_candidate (memRead1_zero_eq_sync_iff.mpr hhead) htotal
    rw [hcand, decodeSlice_candidate hp]
    split
    · exact nofun
    · exact nofun
  · intro l s
    rw [exec_frameDecode, Host.Outcome.next.injEq, emit_inj, Result.decode.injEq, decodeSlice_eq_malformed,
      ne_eq, memRead1_zero_eq_sync_iff]

/-! FRAME.TRYDECODE, rule R126. -/

theorem exec_frameTryDecode {b : List Byte} {s : State} {o : TryOutcome}
    (h : tryDecodeBuffer s.straps.crcFailDrop b = o) : exec (.frameTryDecode b) s = .next (s.emit (.tryDecode o)) :=
  congrArg (fun o => Host.Outcome.next (s.emit (.tryDecode o))) h

/-- Rule R74: the declared total of a header written out. -/
theorem declaredTotal_header (w0 w1 c m hi lo : Byte) (r : List Byte) :
    declaredTotal (sync :: w0 :: w1 :: c :: m :: hi :: lo :: r) = 9 + (hi.toNat * 256 + lo.toNat) :=
  congrArg (9 + ·) (be16_toNat hi lo)

/-- Settles O17: a case each: no sync byte and bytes before one (`tryDecodeBuffer_garbage`), too few bytes
(`tryDecodeBuffer_wait`), a whole candidate (`tryDecodeBuffer_candidate`). -/
theorem tryDecodeInTestOrder : Obligations.TryDecodeInTestOrder := by
  intro s
  refine ⟨rfl, ?_, ?_, ?_, ?_, ?_⟩
  · intro b hne hb
    refine exec_frameTryDecode ?_
    simpa using tryDecodeBuffer_garbage s.straps.crcFailDrop hb hne (.inl rfl)
  · intro g t hne hg
    exact exec_frameTryDecode (tryDecodeBuffer_garbage _ hg hne (.inr rfl))
  · intro t ht
    refine exec_frameTryDecode (tryDecodeBuffer_wait _ (.inl ?_))
    rw [List.length_cons]
    omega
  · intro w0 w1 c m hi lo r hr
    refine exec_frameTryDecode (tryDecodeBuffer_wait _ (.inr ?_))
    rw [declaredTotal_header]
    simp only [List.length_cons]
    omega
  · intro w c m p k r hp
    refine exec_frameTryDecode ?_
    rw [tryDecodeBuffer_candidate _ hp]
    cases s.straps.crcFailDrop <;> rfl

end Sys2Proof.Machine
end

section
/-! PROOF. RX.FEED by what the buffer holds after the append, 42_stream_reassembler.md rules R141, R154. -/

namespace Sys2Proof.Machine

/-- What rule R141 goes on with after a whole candidate: what follows it, or after a mismatch under ONE_BYTE what
follows its sync byte. -/
def afterCandidate (d : CrcFailDrop) (w : Word16) (c m : Byte) (p : List Byte) (k : Word16) (r : List Byte) :
    List Byte :=
  if crcOf (frameBody w c m p) = k ∨ d = .candidate then r else (candidate w c m p k ++ r).drop 1

/-- The event of a whole candidate. -/
def candidateEvent (w : Word16) (c m : Byte) (p : List Byte) (k : Word16) : Event :=
  if crcOf (frameBody w c m p) = k then .validFrame ⟨c, m, p⟩ else .corruptFrameDetected

section Candidate
variable {w : Word16} {c m : Byte} {p : List Byte} {k : Word16} {r : List Byte}

theorem afterCandidate_length_le (d : CrcFailDrop) :
    (afterCandidate d w c m p k r).length ≤ (candidate w c m p k ++ r).length := by
  unfold afterCandidate
  split
  · rw [List.length_append]
    omega
  · rw [List.length_drop]
    omega

/-- After a mismatch, rule R146's drop leaves what rule R141 goes on with. -/
theorem drop_mismatchDrop (d : CrcFailDrop) (hcrc : crcOf (frameBody w c m p) ≠ k) :
    (candidate w c m p k ++ r).drop (mismatchDrop d (9 + p.length)) = afterCandidate d w c m p k r := by
  cases d with
  | candidate =>
    rw [afterCandidate, if_pos (.inr rfl), mismatchDrop, ← candidate_length w c m p k, List.drop_left]
  | oneByte =>
    rw [afterCandidate, if_neg (by simp [hcrc]), mismatchDrop]

/-- Steps 6 and 7 of rule R141: the candidate's event, then the scan of the rest. -/
theorem scan_candidate (d : CrcFailDrop) {g : List Byte} (hg : sync ∉ g) (hp : p.length ≤ 65535) :
    scan d (g ++ (candidate w c m p k ++ r)) =
      (candidateEvent w c m p k :: (scan d (afterCandidate d w c m p k r)).1,
        (scan d (afterCandidate d w c m p k r)).2) := by
  by_cases hcrc : crcOf (frameBody w c m p) = k
  · have hvalid := scan_valid d (w := w) (c := c) (m := m) (rest := r) hg hp
    rw [wireFrame_eq_candidate, hcrc] at hvalid
    rw [hvalid, candidateEvent, if_pos hcrc, afterCandidate, if_pos (.inl hcrc)]
  · rw [scan_corrupt d hg hp hcrc, candidateEvent, if_neg hcrc, drop_mismatchDrop d hcrc]

end Candidate

/-- Rule R16: a sync byte with fewer bytes after it than a header has, or than the header declares. -/
theorem wait_of_short {t : List Byte} (h : t.length < 6 ∨ (sync :: t).length < declaredTotal (sync :: t)) :
    (sync :: t).length < 7 ∨ (sync :: t).length < declaredTotal (sync :: t) :=
  h.imp_left Nat.succ_lt_succ

/-- Settles O19: a feed with room is a scan (`rxFeed_room`), which the shape of the buffer decides: `scan_noSync`,
`scan_wait`, `scan_candidate`. -/
theorem feedFollowsTheSteps : Obligations.FeedFollowsTheSteps := by
  intro new s
  refine ⟨feed_full, fun hroom => ⟨?_, ?_, ?_⟩⟩
  · intro hsync
    rw [rxFeed_room hroom, State.afterFeed, scan_noSync _ hsync]
  · intro g t hbuf hg hshort
    rw [rxFeed_room hroom, State.afterFeed, hbuf, scan_wait _ hg (wait_of_short hshort)]
  · intro g w c m p k r hbuf hg hp
    have hrest : ({ s with buf := [] } : State).roomFor
        (afterCandidate s.straps.crcFailDrop w c m p k r).length := by
      intro cap hcap
      have hcapacity := hroom cap hcap
      have hlen := congrArg List.length hbuf
      have hle := afterCandidate_length_le (w := w) (c := c) (m := m) (p := p) (k := k) (r := r) s.straps.crcFailDrop
      rw [List.length_append, List.length_append] at hlen
      rw [List.length_nil]
      omega
    refine ⟨_, _, rxFeed_room hrest, ?_⟩
    rw [rxFeed_room hroom, State.afterFeed, hbuf, scan_candidate _ hg hp]
    rfl

/-! Garbage and damage before a frame, rule R154. -/

/-- A scan of bytes without a sync byte, then a frame. -/
theorem scan_garbage_wireFrame (d : CrcFailDrop) {g p : List Byte} {w : Word16} {c m : Byte} (hg : sync ∉ g)
    (hp : p.length ≤ 65535) : scan d (g ++ wireFrame w c m p) = ([.validFrame ⟨c, m, p⟩], []) := by
  rw [scan_garbage d hg, scan_wireFrame d w c m p hp]

/-- A scan of a damaged frame, then a frame: what is left of the damaged one holds no sync byte. -/
theorem scan_damaged_wireFrame (d : CrcFailDrop) {w w' k : Word16} {c m c' m' : Byte} {p p' : List Byte}
    (hp : p.length ≤ 65535) (hp' : p'.length ≤ 65535) (hcrc : crcOf (frameBody w' c' m' p') ≠ k)
    (hdrop : d = .candidate ∨ sync ∉ (candidate w' c' m' p' k).drop 1) :
    scan d (candidate w' c' m' p' k ++ wireFrame w c m p) = ([.corruptFrameDetected, .validFrame ⟨c, m, p⟩], []) := by
  have hrest : scan d (afterCandidate d w' c' m' p' k (wireFrame w c m p)) = ([.validFrame ⟨c, m, p⟩], []) := by
    unfold afterCandidate
    split
    · exact scan_wireFrame d w c m p hp
    · next hone => exact scan_garbage_wireFrame d (hdrop.resolve_left (not_or.mp hone).2) hp
  refine (scan_candidate d (g := []) List.not_mem_nil hp').trans ?_
  rw [hrest, candidateEvent, if_neg hcrc]

/-- A feed from an empty buffer that a scan empties again. -/
theorem rxFeed_of_scan_empties {new : List Byte} {s : State} {evs : List Event} (hroom : s.roomFor new.length)
    (hbuf : s.buf = []) (hscan : scan s.straps.crcFailDrop new = (evs, [])) :
    exec (.rxFeed new) s = .next { s with results := s.results ++ [.events evs] } := by
  rw [rxFeed_room hroom, State.afterFeed, hbuf, List.nil_append, hscan, ← hbuf]

/-- Settles O27: the feed is the scan of the whole (`rxFeed_of_scan_empties`), and garbage and a damaged frame each have
their scan. -/
theorem garbageAndDamageBeforeFrame : Obligations.GarbageAndDamageBeforeFrame := by
  intro s c m c' m' g p p' k hbuf hcap hp hp'
  have hroom : ∀ n, s.roomFor n := fun n cap h => absurd (hcap.symm.trans h) nofun
  refine ⟨_, _, frameEncode_fits s hp, frameEncode_fits s hp', fun hg => ?_, fun hdamaged hdrop => ?_⟩
  · exact rxFeed_of_scan_empties (hroom _) hbuf (scan_garbage_wireFrame _ hg hp)
  · have hcrc : crcOf (frameBody pcw c' m' p') ≠ k := by
      rintro rfl
      exact hdamaged rfl
    exact rxFeed_of_scan_empties (hroom _) hbuf (scan_damaged_wireFrame _ hp hp' hcrc hdrop)

/-- Settles O28: FRAME.ANY is the feed of the frame's bytes (`receive_fits`), whose scan is `scan_wireFrame`. -/
theorem everyTripleIsDelivered : Obligations.EveryTripleIsDelivered := by
  intro w c m p s hp hbuf hroom
  refine (receive_fits hp).trans (rxFeed_of_scan_empties ?_ hbuf (scan_wireFrame _ w c m p hp))
  rwa [wireFrame_length]

end Sys2Proof.Machine
end

section
/-! PROOF. The error kinds of the buffer, 60_exceptions.md rules R202 to R207, by the three shapes of a buffer. -/

namespace Sys2Proof.Machine

theorem bufferCondition_noSync {b : List Byte} (h : sync ∉ b) :
    bufferCondition b = if b = [] then none else some .frameSyncLost := by
  rw [bufferCondition, indexOf_none.mpr h]

theorem bufferCondition_wait {g t : List Byte} (h : sync ∉ g)
    (hw : (sync :: t).length < 7 ∨ (sync :: t).length < declaredTotal (sync :: t)) :
    bufferCondition (g ++ sync :: t) = some .framePartial := by
  simp only [bufferCondition, indexOf_garbage h, List.drop_left]
  by_cases hshort : (sync :: t).length < hdrLen
  · rw [if_pos hshort]
  · rw [if_neg hshort, if_pos (hw.resolve_left hshort)]

theorem bufferCondition_candidate {g : List Byte} {w : Word16} {c m : Byte} {p : List Byte} {k : Word16}
    {r : List Byte} (h : sync ∉ g) (hp : p.length ≤ 65535) :
    bufferCondition (g ++ (candidate w c m p k ++ r)) =
      if crcOf (frameBody w c m p) = k then none else some .frameCrcMismatch := by
  have hindex : indexOf sync (g ++ (candidate w c m p k ++ r)) = some g.length := by
    rw [candidate_append]
    exact indexOf_garbage h
  have hlen : 9 + p.length ≤ (candidate w c m p k ++ r).length := by
    rw [List.length_append, candidate_length]
    omega
  have hheader : ¬ (candidate w c m p k ++ r).length < hdrLen := by
    rw [hdrLen]
    omega
  have htake : (candidate w c m p k ++ r).take (9 + p.length) = candidate w c m p k := by
    rw [← candidate_length w c m p k, List.take_left]
  simp only [bufferCondition, hindex, List.drop_left, declaredTotal_candidate k r hp, if_neg hheader,
    if_neg (Nat.not_lt.mpr hlen), htake, decodeSlice_candidate hp]
  by_cases hcrc : crcOf (frameBody w c m p) = k
  · simp only [if_pos hcrc]
  · simp only [if_neg hcrc]

/-- Settles O29: a shape each (`bufferCondition_noSync`, `bufferCondition_wait`, `bufferCondition_candidate`). -/
theorem errorKindInTestOrder : Obligations.ErrorKindInTestOrder := by
  refine ⟨rfl, fun b hne hb => ?_, fun g t hg hshort => bufferCondition_wait hg (wait_of_short hshort),
    fun g w c m p k r hg hp => bufferCondition_candidate hg hp⟩
  rw [bufferCondition_noSync hb, if_neg hne]

/-- A buffer at rest is empty or a wait. -/
theorem bufferCondition_atRest {b : List Byte} (h : atRest b = true) :
    bufferCondition b = if b = [] then none else some .framePartial := by
  obtain rfl | ⟨t, rfl, hw⟩ := atRest_cases h
  · rfl
  · exact bufferCondition_wait (g := []) List.not_mem_nil hw

/-- Rules R202 to R204, R207: what the scan does under each error kind, by the shape of the buffer. -/
theorem scan_effects (d : CrcFailDrop) (b : List Byte) :
    (bufferCondition b = some .frameSyncLost → (scan d b).2 = [] ∧ (scan d b).1 = []) ∧
    (bufferCondition b = some .framePartial →
      (scan d b).1 = [] ∧ (scan d b).2.head? = some sync ∧ ∃ g, b = g ++ (scan d b).2 ∧ sync ∉ g) ∧
    (bufferCondition b = some .frameCrcMismatch → (scan d b).1.head? = some .corruptFrameDetected) ∧
    (bufferCondition b = none → b ≠ [] → ∃ fr, (scan d b).1.head? = some (.validFrame fr)) := by
  obtain hn | ⟨g, t, rfl, hg, hw⟩ | ⟨g, w, c, m, p, k, r, rfl, hg, hp⟩ := buffer_cases b
  · rw [bufferCondition_noSync hn, scan_noSync d hn]
    by_cases hb : b = []
    · simp [hb]
    · simp [hb]
  · rw [bufferCondition_wait hg hw, scan_wait d hg hw]
    exact ⟨nofun, fun _ => ⟨rfl, rfl, g, rfl, hg⟩, nofun, nofun⟩
  · rw [bufferCondition_candidate hg hp, scan_candidate d hg hp, candidateEvent]
    by_cases hcrc : crcOf (frameBody w c m p) = k
    · rw [if_pos hcrc, if_pos hcrc]
      exact ⟨nofun, nofun, nofun, fun _ _ => ⟨_, rfl⟩⟩
    · rw [if_neg hcrc, if_neg hcrc]
      exact ⟨nofun, nofun, fun _ => rfl, nofun⟩

/-- Rule R206: every response code but Success is a rejected write. -/
theorem errorKind_writeOutcomeOf (code : Byte) :
    (Result.write (writeOutcomeOf code)).errorKind = if code = 0x00#8 then none else some .writeRejected := by
  unfold writeOutcomeOf
  split_ifs <;> rfl

/-- Settles O30: the feed is a scan, which ends at rest (`bufferCondition_atRest`) and has the effects of
`scan_effects`; the write responses are `errorKind_writeOutcomeOf`. -/
theorem errorKindsHaveTheirEffects : Obligations.ErrorKindsHaveTheirEffects := by
  constructor
  · intro new s hroom b
    obtain ⟨hlost, hpartial, hmismatch, hvalid⟩ := scan_effects s.straps.crcFailDrop b
    exact ⟨_, _, rxFeed_room hroom, hlost, hpartial, hmismatch, hvalid,
      bufferCondition_atRest (scan_ends_atRest _ _)⟩
  · intro code more s
    exact ⟨_, rfl, errorKind_writeOutcomeOf code, rfl, rfl⟩

end Sys2Proof.Machine
end

section
/-! PROOF. The payload layer's operations on every argument, 43_payload_layer.md: the inventory commands, the parsers,
hexadecimal strings, the EPC write command. -/

namespace Sys2Proof.Machine

/-! Inventory commands, rules R171 to R173. -/

theorem exec_invStart_refused {ids : List Nat} (h : ∃ id ∈ ids, id < 1 ∨ 4 < id) (continuous : Bool) (s : State) :
    exec (.invStart ids continuous) s = .refused .antennaIdOutOfRange := by
  have hbad : ¬ ids.all antennaIdOk = true := by
    rw [antennaIds_all]
    obtain ⟨id, hid, hout⟩ := h
    intro hall
    have := hall id hid
    omega
  exact if_neg hbad

/-- Settles O32: the mask of no ids is zero by definition; an id out of range fails the test of all. -/
theorem invStartAtTheEdges : Obligations.InvStartAtTheEdges := by
  refine ⟨fun continuous s => ?_, fun ids continuous s h => exec_invStart_refused h continuous s⟩
  have hencode := frameEncode_fits (c := catInventory) (m := midStart) (p := startPayload 0x00#8 continuous) s (by simp)
  exact ⟨_, hencode, (exec_invStart_eq_frameEncode (ids := []) nofun continuous s).trans hencode⟩

/-- The STOP_INVENTORY frame of rule R173's example. -/
theorem wireFrame_stop : wireFrame pcw catInventory midStop [] =
    [0x5A#8, 0x00#8, 0x01#8, 0x02#8, 0xFF#8, 0x00#8, 0x00#8, 0x88#8, 0x5A#8] := by decide +kernel

/-- Settles O33: INV.STOP is FRAME.ENCODE of no payload, whose frame is `wireFrame_stop`. -/
theorem invStopFrame : Obligations.InvStopFrame := by
  intro s
  refine ⟨rfl, ?_⟩
  rw [← wireFrame_stop]
  exact frameEncode_fits s (Nat.zero_le _)

/-! Tag reports, rules R175 to R177. -/

theorem hexChar_eq_alphabet (b : Byte) :
    [hexChar (b.extractLsb' 4 4), hexChar (b.extractLsb' 0 4)] =
      [hexAlphabet.getD (b.toNat / 16) '?', hexAlphabet.getD (b.toNat % 16) '?'] := by
  revert b
  decide

theorem hexUpper_eq_flatMap (l : List Byte) :
    hexUpper l = l.flatMap fun b => [hexAlphabet.getD (b.toNat / 16) '?', hexAlphabet.getD (b.toNat % 16) '?'] := by
  induction l with
  | nil => rfl
  | cons b t ih => rw [List.flatMap_cons, ← ih, ← hexChar_eq_alphabet, hexUpper]; rfl

/-- Rule R175: a payload that holds a report is read as it, whatever follows. -/
theorem parseTag_report {hi lo r0 r1 a : Byte} {epc more : List Byte} (h : epc.length = hi.toNat * 256 + lo.toNat) :
    parseTag (hi :: lo :: (epc ++ r0 :: r1 :: a :: more)) = .report (hexUpper epc) a := by
  have hdecl : (memRead2 (hi :: lo :: (epc ++ r0 :: r1 :: a :: more)) 0).toNat = epc.length :=
    (be16_toNat hi lo).trans h.symm
  have hlen : (hi :: lo :: (epc ++ r0 :: r1 :: a :: more)).length = 5 + epc.length + more.length := by
    simp only [List.length_cons, List.length_append]
    omega
  have hepc : slice (hi :: lo :: (epc ++ r0 :: r1 :: a :: more)) 2 (2 + epc.length) = epc :=
    slice_skip (l := [hi, lo]) rfl rfl
  have hant : memRead1 (hi :: lo :: (epc ++ r0 :: r1 :: a :: more)) (4 + epc.length) = a := by
    have hskip : ([hi, lo] ++ epc ++ [r0, r1]).length = 4 + epc.length := by
      simp only [List.length_append, List.length_cons, List.length_nil]
      omega
    have hbytes : hi :: lo :: (epc ++ r0 :: r1 :: a :: more) = [hi, lo] ++ epc ++ [r0, r1] ++ a :: more := by simp
    rw [hbytes]
    exact memRead1_skip hskip 0
  simp only [parseTag, hdecl, hlen, hepc, hant]
  rw [if_neg (by omega), if_neg (by omega), if_neg (by omega)]

/-- Rule R176: a payload too short for its report. -/
theorem parseTag_short {p : List Byte} (h : p.length < 2 ∨ p.length < 5 + (memRead2 p 0).toNat) :
    parseTag p = .parseFailure := by
  simp only [parseTag]
  split_ifs
  · rfl
  · rfl
  · rfl
  · omega

/-- Settles O34: `parseTag_report`, with the digits as characters of the alphabet, and `parseTag_short`. -/
theorem tagParseOutcome : Obligations.TagParseOutcome := by
  intro s
  constructor
  · intro hi lo r0 r1 a epc more hlen
    rw [← hexUpper_eq_flatMap, ← parseTag_report hlen]
    rfl
  · intro p hp
    have hshort : p.length < 2 ∨ p.length < 5 + (memRead2 p 0).toNat := by
      rw [memRead2, be16_toNat]
      exact hp
    rw [← parseTag_short hshort]
    rfl

/-! Write responses, rules R186, R187. -/

/-- Settles O39: the outcome depends on the one code byte. -/
theorem wresParseOutcome : Obligations.WresParseOutcome := by
  refine fun s => ⟨rfl, fun code more => ?_⟩
  refine congrArg (fun o => Host.Outcome.next (s.emit (.write o))) ?_
  rw [parseWrite]
  clear more
  revert code
  decide

/-! Hexadecimal strings, rules R177, R184. -/

theorem hexValue_toLower {c : Char} (h : isHexDigit c) : hexValue c.toLower = hexValue c := by
  revert c
  unfold isHexDigit hexAlphabet
  simp [hexValue]

theorem hexChar_hexValue {c : Char} (h : isHexDigit c) : hexChar ((hexValue c).getD 0) = c.toUpper := by
  revert c
  unfold isHexDigit hexAlphabet
  simp [hexValue, hexChar]

/-- Only the digits' values are read. -/
theorem bytesOfHex_map {f : Char → Char} : ∀ {l : List Char}, (∀ c ∈ l, hexValue (f c) = hexValue c) →
    bytesOfHex (l.map f) = bytesOfHex l
  | [], _ => rfl
  | [_], _ => rfl
  | hi :: lo :: t, h => by
    have htail : bytesOfHex (t.map f) = bytesOfHex t := bytesOfHex_map fun c hc => h c (by simp [hc])
    rw [List.map_cons, List.map_cons, bytesOfHex, bytesOfHex, htail, h hi (by simp), h lo (by simp)]

theorem high_nibble_append (a b : BitVec 4) : (a ++ b : Byte).extractLsb' 4 4 = a := by
  revert a b
  decide

theorem low_nibble_append (a b : BitVec 4) : (a ++ b : Byte).extractLsb' 0 4 = b := by
  revert a b
  decide

/-- Writing what was read gives the upper-case form. -/
theorem hexUpper_bytesOfHex : ∀ {l : List Char}, (∀ c ∈ l, isHexDigit c) → l.length % 2 = 0 →
    hexUpper (bytesOfHex l) = l.map Char.toUpper
  | [], _, _ => rfl
  | [_], _, hlen => by simp at hlen
  | hi :: lo :: t, h, hlen => by
    rw [List.length_cons, List.length_cons, Nat.add_assoc, Nat.add_mod_right] at hlen
    have htail := hexUpper_bytesOfHex (l := t) (fun c hc => h c (by simp [hc])) hlen
    rw [bytesOfHex, hexUpper, high_nibble_append, low_nibble_append, hexChar_hexValue (h hi (by simp)),
      hexChar_hexValue (h lo (by simp)), htail, List.map_cons, List.map_cons]

/-- Settles O38: `bytesOfHex_hexUpper` and `hexUpper_bytesOfHex` are the two directions, and the letter case is not
read (`bytesOfHex_map`). -/
theorem hexReadsBackWhatItWrites : Obligations.HexReadsBackWhatItWrites :=
  ⟨fun l => ⟨bytesOfHex_hexUpper l, hexDigits_iff.mp (hexDigits_hexUpper l)⟩,
    fun _ h => ⟨bytesOfHex_map fun c hc => hexValue_toLower (h c hc), hexUpper_bytesOfHex h⟩⟩

/-! The EPC write command, rules R87, R179 to R184. -/

/-- Settles O37: the first of EPCW.BUILD's tests that fires decides (`epcwBuild_notHex`, `epcwBuild_oddOld`,
`epcwBuild_badId`). -/
theorem epcwBuildRefusals : Obligations.EpcwBuildRefusals := by
  intro old new id pw s
  rw [exec_epcwBuild]
  exact ⟨epcwBuild_notHex, fun hhex hold => epcwBuild_oddOld hhex (by omega),
    fun hhex hold hid => epcwBuild_badId hhex hold (by omega)⟩

theorem antennaBit_eq_ofNat {id : Nat} (h1 : 1 ≤ id) (h4 : id ≤ 4) : antennaBit id = BitVec.ofNat 8 (2 ^ (id - 1)) := by
  interval_cases id <;> decide

/-- Rule R182: the bit length in BITLEN_SIZE bytes, where it fits. -/
theorem bitlenField_eq {size : BitlenSize} {v : Nat} (h : v < 256 ^ size.bytes) :
    bitlenField size v = if size = .one then [BitVec.ofNat 8 v]
      else [BitVec.ofNat 8 (v / 256), BitVec.ofNat 8 (v % 256)] := by
  cases size with
  | one => rfl
  | two => exact lenField_eq (Nat.le_of_lt_succ h)

/-- Rule R182: pid, its length field, the area, the start address, the bit length, the old EPC. -/
theorem matchFields_length (size : BitlenSize) (old : List Byte) :
    (matchFields size old).length = 3 + size.bytes + old.length := by
  simp only [matchFields, List.length_append, List.length_cons, List.length_nil, bitlenField_length]

/-- Rule R87 byte by byte, for lengths that fit their fields. -/
theorem writeEpcPayload_eq {size : BitlenSize} {f : WriteEpcFields} (hnew : 2 + f.newEpc.length ≤ 65535)
    (hold : 3 + size.bytes + f.oldEpc.length ≤ 65535) (hbits : f.oldEpc.length * 8 < 256 ^ size.bytes) :
    writeEpcPayload size f =
      [0x00#8, 0x00#8, 0x00#8, f.antenna, 0x01#8, 0x00#8, 0x01#8,
          BitVec.ofNat 8 ((2 + f.newEpc.length) / 256), BitVec.ofNat 8 ((2 + f.newEpc.length) % 256),
          BitVec.ofNat 8 (f.newEpc.length / 2 * 2048 % 65536 / 256),
          BitVec.ofNat 8 (f.newEpc.length / 2 * 2048 % 256)]
        ++ f.newEpc
        ++ [0x01#8, BitVec.ofNat 8 ((3 + size.bytes + f.oldEpc.length) / 256),
          BitVec.ofNat 8 ((3 + size.bytes + f.oldEpc.length) % 256), 0x01#8, 0x00#8, 0x20#8]
        ++ (if size = .one then [BitVec.ofNat 8 (f.oldEpc.length * 8)]
            else [BitVec.ofNat 8 (f.oldEpc.length * 8 / 256), BitVec.ofNat 8 (f.oldEpc.length * 8 % 256)])
        ++ f.oldEpc
        ++ [0x02#8, BitVec.ofNat 8 (f.password.toNat / 16777216), BitVec.ofNat 8 (f.password.toNat / 65536 % 256),
          BitVec.ofNat 8 (f.password.toNat / 256 % 256), BitVec.ofNat 8 (f.password.toNat % 256)] := by
  simp only [writeEpcPayload, matchFields_length, lenField_eq hnew, lenField_eq hold, bytes16_pcWord, be32_eq]
  simp only [matchFields, bitlenField_eq hbits]
  simp

/-- Settles O35: on admissible arguments EPCW.BUILD is FRAME.ENCODE of the payload (`epcwBuild_build`), laid out by
`writeEpcPayload_eq`. -/
theorem epcwBuildLaysOutThePayload : Obligations.EpcwBuildLaysOutThePayload := by
  intro old new id pw s e o b hhex hold hid1 hid4 hnew hbits hfits
  obtain ⟨f, hf⟩ : ∃ f : WriteEpcFields, f = ⟨antennaBit id, bytesOfHex new, bytesOfHex old, pw⟩ := ⟨_, rfl⟩
  have he : f.newEpc.length = e := by rw [hf]; exact bytesOfHex_length new
  have ho : f.oldEpc.length = o := by rw [hf]; exact bytesOfHex_length old
  have hlen : (writeEpcPayload s.straps.bitlenSize f).length = 22 + e + b + o := by
    rw [writeEpcPayload_length, he, ho]
  have hencode := frameEncode_fits (c := catInventory) (m := midWriteEpc)
    (p := writeEpcPayload s.straps.bitlenSize f) s (hlen.trans_le hfits)
  refine ⟨_, _, ?_, hlen, hencode, ?_⟩
  · rw [writeEpcPayload_eq (by omega) (by omega) (by rw [ho]; exact hbits), he, ho, hf]
    rw [antennaBit_eq_ofNat hid1 hid4]
  · rw [exec_epcwBuild, epcwBuild_build hhex hold ⟨hid1, hid4⟩ hnew, if_pos hbits, ← hf]
    exact hencode

end Sys2Proof.Machine
end

section
/-! PROOF. The FRAME rows (log entry 6): inbound rows as feeds with the consumer's reading (rule R170), outbound rows as
FRAME.ENCODE's frame with its layout, and the builders against them. -/

namespace Sys2Proof.Machine

/-! Inbound rows. -/

/-- The state a catalogue row answers with room (`receiveClassified_eq_afterClassified`): the feed's, and the consumer's
reading of its ValidFrames after the events. -/
def State.afterClassified (s : State) (new : List Byte) : State :=
  { s with
    buf := (scan s.straps.crcFailDrop (s.buf ++ new)).2
    results := s.results ++ [.events (scan s.straps.crcFailDrop (s.buf ++ new)).1,
      .classified ((scan s.straps.crcFailDrop (s.buf ++ new)).1.filterMap classifyEvent)] }

theorem receiveClassified_eq_afterClassified {w : Word16} {c m : Byte} {p : List Byte} {s : State}
    (hp : p.length ≤ 65535) (hroom : s.roomFor (9 + p.length)) :
    receiveClassified w c m p s = .next (s.afterClassified (wireFrame w c m p)) := by
  rw [receiveClassified_room hp hroom]
  simp [State.emit, State.setBuf, State.afterClassified]

/-- Settles O40: RX.FEED and FRAME.ANY are one feed (`rxFeed_room`, `receive_fits`), and each catalogue row is
`receiveClassified` of its pair (`receiveClassified_eq_afterClassified`). -/
theorem inboundFramesAreFeeds : Obligations.InboundFramesAreFeeds := by
  intro w c m p s hp hroom
  have hfeed : exec (.rxFeed (wireFrame w c m p)) s = .next (s.afterFeed (wireFrame w c m p)) :=
    rxFeed_room (by rwa [wireFrame_length])
  have hseen := receiveClassified_eq_afterClassified (w := w) (c := c) (m := m) hp hroom
  refine ⟨_, _, hfeed, (receive_fits hp).trans hfeed, ?_, ?_, ?_, ?_, ?_, ?_⟩
  all_goals
    intros
    subst_vars
    exact hseen

/-- On an empty buffer with room, a catalogue row delivers its frame and the consumer's reading of it. -/
theorem receiveClassified_empty {w : Word16} {c m : Byte} {p : List Byte} {s : State} (hp : p.length ≤ 65535)
    (hbuf : s.buf = []) (hroom : s.roomFor (9 + p.length)) :
    receiveClassified w c m p s = .next { s with results := s.results ++
      [.events [.validFrame ⟨c, m, p⟩], .classified [classifyFrame ⟨c, m, p⟩]] } := by
  rw [receiveClassified_eq_afterClassified hp hroom, State.afterClassified, hbuf, List.nil_append,
    scan_wireFrame _ w c m p hp, ← hbuf]
  rfl

/-- Rule R170: no parser reads a frame of another pair. -/
theorem classifyFrame_unrecognized {fr : Frame}
    (h : fr.category ≠ 0x02#8 ∨ (fr.messageId ≠ 0x00#8 ∧ fr.messageId ≠ 0x11#8)) :
    classifyFrame fr = .unrecognized fr := by
  unfold classifyFrame
  rw [if_neg (by rintro ⟨hc, hm⟩; simp [hc, hm] at h), if_neg (by rintro ⟨hc, hm⟩; simp [hc, hm] at h)]

/-- Settles O41: each row is `receiveClassified_empty`, and `classifyFrame` computes on the row's pair. -/
theorem consumerClassifiesByPair : Obligations.ConsumerClassifiesByPair := by
  refine ⟨fun w p s hp hbuf hroom => ⟨?_, ?_, ?_, ?_⟩, fun fr h => congrArg some (classifyFrame_unrecognized h), rfl⟩
  all_goals exact receiveClassified_empty hp hbuf hroom

/-- Settles O42: the frame is delivered and read by TAG.PARSE (`receiveClassified_empty`), which finds the report
(`parseTag_report`). -/
theorem tagReportArrivesAsReport : Obligations.TagReportArrivesAsReport := by
  intro epc r0 r1 a s hlen hbuf hroom p
  have hplen : p.length = 5 + epc.length := by
    simp only [p, List.length_cons, List.length_append, List.length_nil]
    omega
  have hreport : parseTag p = .report (hexUpper epc) a := by
    apply parseTag_report (more := [])
    rw [BitVec.toNat_ofNat, BitVec.toNat_ofNat]
    omega
  rw [← hreport]
  refine receiveClassified_empty (by omega) hbuf ?_
  rw [hplen, ← Nat.add_assoc]
  exact hroom

/-! Outbound rows. -/

theorem readWriteEpc_eq_writeEpc {size : BitlenSize} {p : List Byte} {fields : WriteEpcFields}
    (h : readWriteEpc size p = .writeEpc fields) : p = writeEpcPayload size fields := by
  simp only [readWriteEpc] at h
  split at h
  · next hlayout =>
    cases h
    exact hlayout.1
  · cases h

theorem readStop_eq_stopInventory {p : List Byte} : readStop p = .stopInventory ↔ p = [] := by
  unfold readStop
  split_ifs with hp <;> simp [hp]

/-- Settles O43: each row is `transmit` of its payload (`transmit_fits`), and its layout is the reader's:
`readStart_eq`, `readWriteEpc_eq_writeEpc`, `readStop_eq_stopInventory`. -/
theorem outboundFramesAreSent : Obligations.OutboundFramesAreSent := by
  intro p s hp
  refine ⟨⟨_, _, frameEncode_fits s hp, transmit_fits hp, fun mask continuous => readStart_eq⟩,
    ⟨_, _, frameEncode_fits s hp, transmit_fits hp, fun fields => readWriteEpc_eq_writeEpc⟩,
    ⟨_, _, frameEncode_fits s hp, transmit_fits hp, readStop_eq_stopInventory⟩⟩

/-! The builders against the outbound rows. -/

theorem antennaBit_mem {id : Nat} (h1 : 1 ≤ id) (h4 : id ≤ 4) :
    antennaBit id ∈ [0x01#8, 0x02#8, 0x04#8, 0x08#8] := by
  interval_cases id <;> decide

/-- A WRITE_EPC payload with one antenna bit, whole words and a bit length that fits reads back as its fields. -/
theorem readWriteEpc_payload {size : BitlenSize} {f : WriteEpcFields} (hp : (writeEpcPayload size f).length ≤ 65535)
    (hant : f.antenna ∈ [0x01#8, 0x02#8, 0x04#8, 0x08#8]) (hnew : f.newEpc.length % 2 = 0)
    (hbits : f.oldEpc.length * 8 < 256 ^ size.bytes) :
    readWriteEpc size (writeEpcPayload size f) = .writeEpc f := by
  rw [writeEpcPayload_length] at hp
  have hfields := writeEpcFieldsAt_payload size f (by omega) (by omega)
  simp only [readWriteEpc, hfields, true_and]
  exact if_pos ⟨hant, hnew, decide_eq_true hbits⟩

/-- What the arguments of a frame EPCW.BUILD returned were, and the frame. -/
theorem epcwBuild_frame {old new : List Char} {id : Nat} {pw : Word32} {f : List Byte} {s : State}
    (h : execEpcwBuild old new id pw s = .next (s.emit (.frame f))) :
    (1 ≤ id ∧ id ≤ 4) ∧ new.length % 4 = 0 ∧ old.length / 2 * 8 < 256 ^ s.straps.bitlenSize.bytes ∧
      exec (.frameEncode catInventory midWriteEpc (writeEpcPayload s.straps.bitlenSize
        ⟨antennaBit id, bytesOfHex new, bytesOfHex old, pw⟩)) s = .next (s.emit (.frame f)) := by
  by_cases hhex : ∃ c ∈ old ++ new, ¬ isHexDigit c
  · rw [epcwBuild_notHex hhex] at h
    cases h
  have hdigits : ∀ c ∈ old ++ new, isHexDigit c := fun c hc => by_contra fun hnot => hhex ⟨c, hc, hnot⟩
  by_cases hold : old.length % 2 = 0
  swap
  · rw [epcwBuild_oddOld hdigits hold] at h
    cases h
  by_cases hid : 1 ≤ id ∧ id ≤ 4
  swap
  · rw [epcwBuild_badId hdigits hold hid] at h
    cases h
  by_cases hnew : new.length % 4 = 0
  swap
  · rw [epcwBuild_newLength hdigits hold hid hnew] at h
    cases emit_inj.mp (Host.Outcome.next.inj h)
  rw [epcwBuild_build hdigits hold hid hnew] at h
  split at h
  · next hbits => exact ⟨hid, hnew, hbits, h⟩
  · cases h

/-- What FRAME.ENCODE returned is what a row of that message id sends. -/
theorem transmit_of_frameEncode {m : Byte} {p f : List Byte} {s : State} (layout : Layout)
    (h : exec (.frameEncode catInventory m p) s = .next (s.emit (.frame f))) :
    p.length ≤ 65535 ∧ transmit m layout p s = .next (s.emit (.sent f layout)) := by
  have hp : p.length ≤ 65535 := by
    by_contra hlong
    have hrefused : exec (.frameEncode catInventory m p) s = .refused .payloadTooLong :=
      returnFrame_long (Nat.lt_of_not_le hlong)
    rw [hrefused] at h
    cases h
  rw [eq_wireFrame_of_frameEncode hp h]
  exact ⟨hp, transmit_fits hp⟩

theorem invStart_ids_of_next {ids : List Nat} {continuous : Bool} {s t : State}
    (h : exec (.invStart ids continuous) s = .next t) : ∀ id ∈ ids, 1 ≤ id ∧ id ≤ 4 := by
  intro id hid
  by_contra hout
  rw [exec_invStart_refused ⟨id, hid, by omega⟩] at h
  cases h

/-- Settles O44: a builder's frame is FRAME.ENCODE's of its payload, which the row sends (`transmit_of_frameEncode`) and
whose layout reads back the arguments (`readWriteEpc_payload`, `readStart_eq`, `antennaMask_getLsbD`). -/
theorem buildersMatchOutboundRows : Obligations.BuildersMatchOutboundRows := by
  refine ⟨fun old new id pw f s h => ?_, fun ids continuous f s h => ?_,
    fun s => ⟨_, frameEncode_fits s (Nat.zero_le _), rfl⟩⟩
  · rw [exec_epcwBuild] at h
    obtain ⟨⟨hid1, hid4⟩, hnew, hbits, hframe⟩ := epcwBuild_frame h
    obtain ⟨hp, hsent⟩ := transmit_of_frameEncode (.writeEpc ⟨antennaBit id, bytesOfHex new, bytesOfHex old, pw⟩) hframe
    have hread := readWriteEpc_payload hp (antennaBit_mem hid1 hid4)
      (by simp only [bytesOfHex_length]; omega) (by rw [bytesOfHex_length]; exact hbits)
    refine ⟨writeEpcPayload s.straps.bitlenSize ⟨antennaBit id, bytesOfHex new, bytesOfHex old, pw⟩, ?_⟩
    rw [← antennaBit_eq_ofNat hid1 hid4, ← hsent, ← hread]
    rfl
  · have hids := invStart_ids_of_next h
    rw [exec_invStart_eq_frameEncode hids] at h
    obtain ⟨-, hsent⟩ := transmit_of_frameEncode (.startInventory (antennaMask ids) continuous) h
    refine ⟨startPayload (antennaMask ids) continuous, antennaMask ids, ?_, fun id hid => ?_⟩
    · rw [← hsent, ← readStart_eq.mpr rfl]
      rfl
    · rw [antennaMask_getLsbD hids, decide_eq_true_iff, Nat.sub_add_cancel hid]

end Sys2Proof.Machine
end
